-- ==== Sys2Proof/Word.lean ====
section
/-!
DEFINITION. Bytes, W-bit words and the one logarithm the encoding needs.
-/

namespace Sys2Proof

/-- One byte of memory (20_memory.md R51). -/
abbrev Byte := BitVec 8

/-- A word: a string of `w` bits (00_scope.md R13, R18). `toNat` is the spec's `u(·)`, `toInt` its `s(·)` (R14). -/
abbrev Word (w : Nat) := BitVec w

/-- `⌈log2 n⌉`, with `0` for `n = 1` (00_scope.md R11, the row `KB`). -/
def ceilLog2 (n : Nat) : Nat := if n ≤ 1 then 0 else Nat.log2 (n - 1) + 1

end Sys2Proof
end

