-- ==== Sys2Proof/Config.lean ====
section
/-!
DEFINITION. The parameters of a TinyRAM machine (00_scope.md section 4) and the quantities derived from them.
They are plain data and no step changes them (notes/assumptions/1.md).
-/

namespace Sys2Proof

/-- The two variants: Harvard and von Neumann (00_scope.md R2, R9). -/
inductive Arch where
  | hv
  | vn
  deriving DecidableEq, Repr

/-- What the machine does at `answer`: the source leaves the choice undefined (48_answer_operation.md R173). -/
inductive AnswerMode where
  | halt
  | stall
  deriving DecidableEq, Repr

/-- The two readings of the result of `smulh` for a negative product (41_integer_operations.md R135). -/
inductive SmulhReading where
  | literal
  | twosComplement
  deriving DecidableEq, Repr

/-- The parameters of one machine (00_scope.md R7 to R9, R12). The word size is given by `logWB = log2 W − 3`, so that
every value of the field is a legal word size: a power of two divisible by 8 (R7, R11). -/
structure Config where
  logWB      : Nat
  K          : Nat
  arch       : Arch
  answerMode : AnswerMode
  smulh      : SmulhReading
  deriving DecidableEq, Repr

/-- `WB = W/8`: bytes in a word (00_scope.md R11). -/
abbrev Config.WB (c : Config) : Nat := 2 ^ c.logWB

/-- `W`: the word size in bits (00_scope.md R7). -/
abbrev Config.W (c : Config) : Nat := 8 * c.WB

/-- `DWB = 2W/8`: bytes in a double word, which is one encoded instruction (00_scope.md R11). -/
abbrev Config.DWB (c : Config) : Nat := 2 * c.WB

/-- `2W`, the bits of a double word, counted as eight for each of its bytes (30_encoding.md R80). -/
abbrev Config.EW (c : Config) : Nat := 8 * c.DWB

/-- `KB = ⌈log2 K⌉`: bits in a register field (00_scope.md R11). -/
def Config.KB (c : Config) : Nat := ceilLog2 c.K

/-- `PAD = W − 6 − 2·KB`: bits of padding, field #5 (00_scope.md R11, 30_encoding.md R86). -/
def Config.PAD (c : Config) : Nat := c.W - 6 - 2 * c.KB

/-- The inequality the binary encoding assumes (00_scope.md R10). -/
abbrev Config.encodable (c : Config) : Prop := 6 + 2 * c.KB ≤ c.W

/-- The parameters are those of a TinyRAM machine: at least one register (00_scope.md R8), and in vn the encoding
exists (R10). -/
abbrev Config.legal (c : Config) : Prop := 1 ≤ c.K ∧ (c.arch = .vn → c.encodable)

/-- `PC_INC`: what a non-jumping instruction adds to `pc` (00_scope.md R11). -/
def Config.pcInc (c : Config) : Nat :=
  match c.arch with
  | .hv => 1
  | .vn => c.DWB

/-- The instance of `spec/opcode_table.json`, `W = K = 16`, with the values of the remaining parameters that
notes/assumptions/2.md gives (DESIGN CHOICE; unsafe: the spec gives no instance). -/
def Config.table : Config where
  logWB := 1
  K := 16
  arch := .vn
  answerMode := .halt
  smulh := .literal

end Sys2Proof
end

