-- ==== Sys2Proof/Syntax.lean ====
section
/-!
DEFINITION. The instructions, one constructor for each row of spec/opcode_table.json (30_encoding.md R91, R93).
A register name is its number (10_state.md R21); operands stand in the order of the assembly form (R104).
-/

namespace Sys2Proof

/-- Operand `A`: an immediate value, given by the unsigned integer of its `W` bits, or a register name
(00_scope.md R15, 30_encoding.md R90). -/
inductive Operand where
  | imm (v : Nat)
  | reg (n : Nat)
  deriving DecidableEq, Repr

/-- The 29 instructions and the three unassigned opcodes, which execute as `answer 1` (30_encoding.md R93). -/
inductive Instr where
  | and (ri rj : Nat) (a : Operand)
  | or (ri rj : Nat) (a : Operand)
  | xor (ri rj : Nat) (a : Operand)
  | not (ri : Nat) (a : Operand)
  | add (ri rj : Nat) (a : Operand)
  | sub (ri rj : Nat) (a : Operand)
  | mull (ri rj : Nat) (a : Operand)
  | umulh (ri rj : Nat) (a : Operand)
  | smulh (ri rj : Nat) (a : Operand)
  | udiv (ri rj : Nat) (a : Operand)
  | umod (ri rj : Nat) (a : Operand)
  | shl (ri rj : Nat) (a : Operand)
  | shr (ri rj : Nat) (a : Operand)
  | cmpe (ri : Nat) (a : Operand)
  | cmpa (ri : Nat) (a : Operand)
  | cmpae (ri : Nat) (a : Operand)
  | cmpg (ri : Nat) (a : Operand)
  | cmpge (ri : Nat) (a : Operand)
  | mov (ri : Nat) (a : Operand)
  | cmov (ri : Nat) (a : Operand)
  | jmp (a : Operand)
  | cjmp (a : Operand)
  | cnjmp (a : Operand)
  | storeB (a : Operand) (ri : Nat)
  | loadB (ri : Nat) (a : Operand)
  | storeW (a : Operand) (ri : Nat)
  | loadW (ri : Nat) (a : Operand)
  | read (ri : Nat) (a : Operand)
  | answer (a : Operand)
  | unassigned23
  | unassigned24
  | unassigned25
  deriving DecidableEq, Repr

end Sys2Proof
end

