-- ==== Sys2Proof/WellFormed.lean ====
section
/-!
DEFINITION. What makes an instruction one of a given machine: every register number it uses is below `K`, and an
immediate is a `W`-bit value (10_state.md R24, 30_encoding.md R95).
-/

namespace Sys2Proof

/-- The registers that an instruction names outside operand `A` (30_encoding.md R89). -/
def Instr.registers : Instr → List Nat
  | .and ri rj _ | .or ri rj _ | .xor ri rj _ => [ri, rj]
  | .add ri rj _ | .sub ri rj _ | .mull ri rj _ | .umulh ri rj _ | .smulh ri rj _ => [ri, rj]
  | .udiv ri rj _ | .umod ri rj _ | .shl ri rj _ | .shr ri rj _ => [ri, rj]
  | .not ri _ | .mov ri _ | .cmov ri _ | .loadB ri _ | .loadW ri _ | .read ri _ => [ri]
  | .cmpe ri _ | .cmpa ri _ | .cmpae ri _ | .cmpg ri _ | .cmpge ri _ => [ri]
  | .storeB _ ri | .storeW _ ri => [ri]
  | .jmp _ | .cjmp _ | .cnjmp _ | .answer _ => []
  | .unassigned23 | .unassigned24 | .unassigned25 => []

/-- Operand `A`. An unassigned opcode consults no field; it executes as `answer` with the immediate 1
(30_encoding.md R93). -/
def Instr.operandA : Instr → Operand
  | .and _ _ a | .or _ _ a | .xor _ _ a | .not _ a => a
  | .add _ _ a | .sub _ _ a | .mull _ _ a | .umulh _ _ a | .smulh _ _ a | .udiv _ _ a | .umod _ _ a => a
  | .shl _ _ a | .shr _ _ a => a
  | .cmpe _ a | .cmpa _ a | .cmpae _ a | .cmpg _ a | .cmpge _ a => a
  | .mov _ a | .cmov _ a => a
  | .jmp a | .cjmp a | .cnjmp a => a
  | .storeB a _ | .loadB _ a | .storeW a _ | .loadW _ a => a
  | .read _ a => a
  | .answer a => a
  | .unassigned23 | .unassigned24 | .unassigned25 => .imm 1

/-- A register name is "an integer between 0 and K−1"; an immediate value is a `W`-bit string (00_scope.md R15, R18). -/
def Operand.wf (c : Config) : Operand → Bool
  | .imm v => decide (v < 2 ^ c.W)
  | .reg n => decide (n < c.K)

/-- The instruction is one of the machine `c` (10_state.md R24). -/
def Instr.wf (c : Config) (i : Instr) : Bool :=
  i.registers.all (fun n => decide (n < c.K)) && i.operandA.wf c

/-- The list is an hv program of the machine `c`: at most `2^W` instructions, each of that machine (10_state.md R24). -/
abbrev Program.wf (c : Config) (p : List Instr) : Prop :=
  p.length ≤ 2 ^ c.W ∧ ∀ i ∈ p, i.wf c

end Sys2Proof
end

