-- ==== Sys2Proof/Decode.lean ====
section
/-!
DEFINITION. The binary encoding: byte order, the six fields, the decoder and the canonical encoder (30_encoding.md
R80 to R96, 20_memory.md R52 to R54).
-/

namespace Sys2Proof

/-! ## Byte order -/

/-- The block of `n` bytes, the least significant byte first (20_memory.md R52). A byte the list lacks counts as 0. -/
def blockOfBytes : (n : Nat) → List Byte → BitVec (8 * n)
  | 0, _ => 0
  | n + 1, bs => blockOfBytes n bs.tail ++ bs.headD 0

/-- The `n` bytes of a block in the order of their addresses, the least significant first (20_memory.md R53). -/
def bytesOfBlock : (n : Nat) → BitVec (8 * n) → List Byte
  | 0, _ => []
  | n + 1, v => v.extractLsb' 0 8 :: bytesOfBlock n (v.extractLsb' 8 (8 * n))

/-! ## Fields -/

/-- The fields #1 to #4 and #6 of an encoded instruction; field #5 is padding and is not read (30_encoding.md R81,
R94). -/
structure Fields where
  opcode : Nat
  imm    : Bool
  f3     : Nat
  f4     : Nat
  f6     : Nat
  deriving DecidableEq, Repr

/-- The fields of a double word, at the bit positions of the table of 30_encoding.md R81. -/
def fieldsOf (c : Config) (e : BitVec c.EW) : Fields where
  opcode := (e.extractLsb' (2 * c.W - 5) 5).toNat
  imm := e.getLsbD (2 * c.W - 6)
  f3 := (e.extractLsb' (2 * c.W - 6 - c.KB) c.KB).toNat
  f4 := (e.extractLsb' (2 * c.W - 6 - 2 * c.KB) c.KB).toNat
  f6 := (e.extractLsb' 0 c.W).toNat

/-- Operand `A`: the immediate in field #6 when field #2 is 1, else the register whose number is the whole of field #6
(30_encoding.md R90). -/
def Fields.operandA (f : Fields) : Operand := if f.imm then .imm f.f6 else .reg f.f6

/-- The opcode map with the formats RRA, RA, CA, A and AR (30_encoding.md R89, R91). An opcode is a five-bit number, so
the last row is opcode 31. Opcodes 23 to 25 are not assigned (R93). -/
def Fields.instr (f : Fields) : Instr :=
  match f.opcode with
  | 0 => .and f.f3 f.f4 f.operandA
  | 1 => .or f.f3 f.f4 f.operandA
  | 2 => .xor f.f3 f.f4 f.operandA
  | 3 => .not f.f3 f.operandA
  | 4 => .add f.f3 f.f4 f.operandA
  | 5 => .sub f.f3 f.f4 f.operandA
  | 6 => .mull f.f3 f.f4 f.operandA
  | 7 => .umulh f.f3 f.f4 f.operandA
  | 8 => .smulh f.f3 f.f4 f.operandA
  | 9 => .udiv f.f3 f.f4 f.operandA
  | 10 => .umod f.f3 f.f4 f.operandA
  | 11 => .shl f.f3 f.f4 f.operandA
  | 12 => .shr f.f3 f.f4 f.operandA
  | 13 => .cmpe f.f4 f.operandA
  | 14 => .cmpa f.f4 f.operandA
  | 15 => .cmpae f.f4 f.operandA
  | 16 => .cmpg f.f4 f.operandA
  | 17 => .cmpge f.f4 f.operandA
  | 18 => .mov f.f3 f.operandA
  | 19 => .cmov f.f3 f.operandA
  | 20 => .jmp f.operandA
  | 21 => .cjmp f.operandA
  | 22 => .cnjmp f.operandA
  | 23 => .unassigned23
  | 24 => .unassigned24
  | 25 => .unassigned25
  | 26 => .storeB f.operandA f.f3
  | 27 => .loadB f.f3 f.operandA
  | 28 => .storeW f.operandA f.f3
  | 29 => .loadW f.f3 f.operandA
  | 30 => .read f.f3 f.operandA
  | _ => .answer f.operandA

/-! ## The decoder -/

/-- Why a double word, or an entry of a list, is no instruction of the machine. -/
inductive DecodeError where
  /-- A used field names register `n`, and `n ≥ K` (30_encoding.md R95). -/
  | registerOutOfRange (n : Nat)
  /-- A decoded instruction holds an immediate that is no `W`-bit value (10_state.md R24); no double word does. -/
  | immediateOutOfRange (v : Nat)
  /-- `6 + 2·KB > W`: the machine has no binary encoding (00_scope.md R10). -/
  | noEncoding
  /-- The bytes given are not the `DWB` bytes of one instruction (30_encoding.md R80). -/
  | wrongLength
  deriving DecidableEq, Repr

/-- What forbids operand `A`, if anything does. -/
def checkOperandA (c : Config) : Operand → Option DecodeError
  | .imm v => if v < 2 ^ c.W then none else some (.immediateOutOfRange v)
  | .reg n => if n < c.K then none else some (.registerOutOfRange n)

/-- What forbids the registers `rs` and operand `A`, if anything does: "every register number that the format uses must
be < K" (30_encoding.md R92, R95). -/
def checkOperands (c : Config) (rs : List Nat) (a : Operand) : Option DecodeError :=
  match rs.find? (fun n => decide (c.K ≤ n)) with
  | some n => some (.registerOutOfRange n)
  | none => checkOperandA c a

/-- The instruction if it is one of the machine `c`. -/
def checkInstr (c : Config) (i : Instr) : Except DecodeError Instr :=
  match checkOperands c i.registers i.operandA with
  | some e => .error e
  | none => .ok i

/-- The decoder (30_encoding.md R92). -/
def decode (c : Config) (e : BitVec c.EW) : Except DecodeError Instr :=
  if c.encodable then checkInstr c (fieldsOf c e).instr else .error .noEncoding

/-- The decoder on bytes in the order of their addresses (20_memory.md R54). -/
def decodeBytes (c : Config) (bs : List Byte) : Except DecodeError Instr :=
  if bs.length = c.DWB then decode c (blockOfBytes c.DWB bs) else .error .wrongLength

/-! ## The encoder -/

/-- The fields that the canonical encoder writes; a register field that the format ignores is 0 (30_encoding.md R96). -/
def Fields.ofOperands (op f3 f4 : Nat) : Operand → Fields
  | .imm v => { opcode := op, imm := true, f3 := f3, f4 := f4, f6 := v }
  | .reg n => { opcode := op, imm := false, f3 := f3, f4 := f4, f6 := n }

/-- The opcode of the instruction is one that does not appear in Table 2 (30_encoding.md R93). -/
def Instr.isUnassigned : Instr → Bool
  | .unassigned23 | .unassigned24 | .unassigned25 => true
  | .and _ _ _ | .or _ _ _ | .xor _ _ _ | .not _ _ => false
  | .add _ _ _ | .sub _ _ _ | .mull _ _ _ | .umulh _ _ _ | .smulh _ _ _ | .udiv _ _ _ | .umod _ _ _ => false
  | .shl _ _ _ | .shr _ _ _ => false
  | .cmpe _ _ | .cmpa _ _ | .cmpae _ _ | .cmpg _ _ | .cmpge _ _ => false
  | .mov _ _ | .cmov _ _ | .loadB _ _ | .loadW _ _ | .storeB _ _ | .storeW _ _ | .read _ _ => false
  | .jmp _ | .cjmp _ | .cnjmp _ | .answer _ => false

/-- The instruction of Table 2 that an instruction is: an unassigned opcode "is assumed to encode the instruction
answer 1" (30_encoding.md R93). That it has a constructor besides is the model's choice (notes/assumptions/16.md). -/
def Instr.canonical (i : Instr) : Instr := if i.isUnassigned then .answer (.imm 1) else i

/-- The fields of each instruction, by its format (30_encoding.md R89, R91). An unassigned opcode is the instruction
`answer 1`, and that is what the canonical encoder writes for it (R93, R96). -/
def Instr.fields : Instr → Fields
  | .and ri rj a => .ofOperands 0 ri rj a
  | .or ri rj a => .ofOperands 1 ri rj a
  | .xor ri rj a => .ofOperands 2 ri rj a
  | .not ri a => .ofOperands 3 ri 0 a
  | .add ri rj a => .ofOperands 4 ri rj a
  | .sub ri rj a => .ofOperands 5 ri rj a
  | .mull ri rj a => .ofOperands 6 ri rj a
  | .umulh ri rj a => .ofOperands 7 ri rj a
  | .smulh ri rj a => .ofOperands 8 ri rj a
  | .udiv ri rj a => .ofOperands 9 ri rj a
  | .umod ri rj a => .ofOperands 10 ri rj a
  | .shl ri rj a => .ofOperands 11 ri rj a
  | .shr ri rj a => .ofOperands 12 ri rj a
  | .cmpe ri a => .ofOperands 13 0 ri a
  | .cmpa ri a => .ofOperands 14 0 ri a
  | .cmpae ri a => .ofOperands 15 0 ri a
  | .cmpg ri a => .ofOperands 16 0 ri a
  | .cmpge ri a => .ofOperands 17 0 ri a
  | .mov ri a => .ofOperands 18 ri 0 a
  | .cmov ri a => .ofOperands 19 ri 0 a
  | .jmp a => .ofOperands 20 0 0 a
  | .cjmp a => .ofOperands 21 0 0 a
  | .cnjmp a => .ofOperands 22 0 0 a
  | .unassigned23 => .ofOperands 31 0 0 (.imm 1)
  | .unassigned24 => .ofOperands 31 0 0 (.imm 1)
  | .unassigned25 => .ofOperands 31 0 0 (.imm 1)
  | .storeB a ri => .ofOperands 26 ri 0 a
  | .loadB ri a => .ofOperands 27 ri 0 a
  | .storeW a ri => .ofOperands 28 ri 0 a
  | .loadW ri a => .ofOperands 29 ri 0 a
  | .read ri a => .ofOperands 30 ri 0 a
  | .answer a => .ofOperands 31 0 0 a

/-- Fields 1 to 6 concatenated in this order, the first the most significant, the padding zero (30_encoding.md R81,
R96). Where the encoding exists the six widths make `2W` bits. -/
def pack (c : Config) (f : Fields) : BitVec c.EW :=
  (BitVec.ofNat 5 f.opcode ++ BitVec.ofBool f.imm ++ BitVec.ofNat c.KB f.f3 ++ BitVec.ofNat c.KB f.f4
    ++ BitVec.ofNat c.PAD 0 ++ BitVec.ofNat c.W f.f6).setWidth c.EW

/-- The canonical encoder (30_encoding.md R96). -/
def encode (c : Config) (i : Instr) : BitVec c.EW := pack c i.fields

/-- The bytes of the encoded instruction in the order of their addresses (20_memory.md R54). -/
def encodeBytes (c : Config) (i : Instr) : List Byte := bytesOfBlock c.DWB (encode c i)

/-- The instruction that the decoder reads from a word of spec/opcode_table.json: the low `nbits` bits of `w`, laid out
as the bytes of a double word of the table's machine. -/
def decodeTableWord (nbits w : Nat) : Option Instr :=
  (decodeBytes Config.table (bytesOfBlock Config.table.DWB (BitVec.ofNat Config.table.EW (w % 2 ^ nbits)))).toOption

end Sys2Proof
end

