-- ==== Sys2Proof/Machine/State.lean ====
section
/-!
DEFINITION. The state of the machine (10_state.md R20 to R37), its initial values (R40 to R43), and the reasons for
which a step can stop.
-/

namespace Sys2Proof.Machine

/-- Memory as (address, byte) pairs in one canonical form: addresses strictly rising, no entry equal to what an
unlisted address reads as (20_memory.md R51). -/
abbrev Memory := List Host.Cell

/-- What an address that is not listed reads as: hv memory starts at zero (10_state.md R40); in vn this is the spec's
default of `INIT_MEM` (R42, R43). DESIGN CHOICE of the spec (D6), notes/assumptions/9.md, unsafe. -/
def unlistedByte : Byte := 0

/-- The canonical form of a memory. -/
abbrev Memory.wf (m : Memory) : Prop :=
  m.Pairwise (fun p q => p.1 < q.1) ∧ ∀ p ∈ m, p.2 ≠ unlistedByte

/-- Bookkeeping that is not machine state: the run goes on, or `answer` has ended it with a return value
(10_state.md R37, 48_answer_operation.md R172). -/
inductive Status (w : Nat) where
  | running
  | answered (v : Word w)
  deriving DecidableEq, Repr

/-- The machine: its parameters and, in hv, its program, which no step changes (00_scope.md R12, 10_state.md R24;
notes/assumptions/1.md); the state of 10_state.md R20; the bookkeeping of R37. -/
structure State where
  /-- `W`, `K`, `ARCH`, `ANSWER_MODE`, `SMULH_READING` (00_scope.md R7 to R12). -/
  cfg    : Config
  /-- The hv program `P` (10_state.md R24); a vn machine does not look at it. -/
  prog   : List Instr
  /-- The program counter (10_state.md R22). -/
  pc     : Word cfg.W
  /-- The registers `x[0] … x[K−1]` (10_state.md R21). -/
  regs   : Vector (Word cfg.W) cfg.K
  /-- The condition flag (10_state.md R30). -/
  flag   : Bool
  /-- Memory, `2^W` bytes (10_state.md R31). -/
  mem    : Memory
  /-- `rem[0]`: the words that remain on the primary input tape (10_state.md R33). -/
  tape0  : List (Word cfg.W)
  /-- `rem[1]`: the words that remain on the auxiliary input tape (10_state.md R33). -/
  tape1  : List (Word cfg.W)
  /-- Bookkeeping: running or answered (10_state.md R37). -/
  status : Status cfg.W
  /-- Bookkeeping: the number of steps taken (10_state.md R37, R38). -/
  steps  : Nat
  deriving DecidableEq, Repr

/-- The initial state of a machine with program `p` (hv), memory image `m` (vn) and tapes `x` and `w` (10_state.md R43).
In hv memory is all zero (R40); in vn the program is the image (R41). -/
def State.initial (c : Config) (p : List Instr) (m : Memory) (x w : List (Word c.W)) : State where
  cfg := c
  prog := match c.arch with
    | .hv => p
    | .vn => []
  pc := 0
  regs := Vector.replicate c.K 0
  flag := false
  mem := match c.arch with
    | .hv => []
    | .vn => m
  tape0 := x
  tape1 := w
  status := .running
  steps := 0

/-- The machine right after reset: the initial state of the table's instance with no program and empty tapes
(10_state.md R43, 70_reset_and_hazards.md R200; notes/assumptions/2.md and 3.md). -/
def State.reset : State := State.initial Config.table [] [] [] []

/-- The reasons for which a step has no next state although nothing is wrong with the instruction. -/
inductive Fault where
  /-- Raised by `step` when the run has ended with `answer` and the machine is one that halts: "the computation stops"
  (48_answer_operation.md R173, R178). Safe: it is the spec's own end of a run. -/
  | halted
  deriving DecidableEq, Repr

/-- The reasons for which there is no instruction to execute. -/
inductive Refusal where
  /-- Raised by an arm of `exec` for an instruction that has no meaning yet. Safe. No arm raises it. -/
  | notModelled (mnemonic : String)
  /-- Raised by the fetch and by a meaning for what is no instruction of the machine, above all a register number of `K`
  or more (30_encoding.md R95, D2). Safe: the run has no result. -/
  | notAnInstruction (why : DecodeError)
  /-- Raised by the fetch where the parameters are those of no TinyRAM machine (00_scope.md R8, R10; U18). Safe. -/
  | illegalParameters
  /-- Raised by the fetch in hv for a program of more than `2^W` instructions, which is no TinyRAM program
  (10_state.md R24; U17). Safe. -/
  | programTooLong
  deriving DecidableEq, Repr

end Sys2Proof.Machine
end

