-- ==== Sys2Proof/Machine/Ops.lean ====
section
/-!
DEFINITION. The named operations over memory, registers, tapes and the program counter (00_scope.md R16). There is no
operation that takes an exception and none that returns from one: the machine has neither (60_exceptions.md R180,
R188, R189).
-/

namespace Sys2Proof.Machine

/-! ## Memory -/

/-- `Mem[a]`. -/
def Memory.read : Memory → Nat → Byte
  | [], _ => unlistedByte
  | p :: m, a => if p.1 = a then p.2 else Memory.read m a

/-- The memory without an entry for `a`: `a` reads as an unlisted address. -/
def Memory.remove (m : Memory) (a : Nat) : Memory := m.filter fun p => p.1 != a

/-- The memory with the entry `(a, b)` before the first entry of a higher address. -/
def Memory.insert : Memory → Nat → Byte → Memory
  | [], a, b => [(a, b)]
  | p :: m, a, b => if p.1 < a then p :: Memory.insert m a b else (a, b) :: p :: m

/-- `Mem[a] <- b`, keeping the canonical form: a byte equal to what an unlisted address reads as is not listed. -/
def Memory.write (m : Memory) (a : Nat) (b : Byte) : Memory :=
  if b = unlistedByte then Memory.remove m a else Memory.insert (Memory.remove m a) a b

/-- The `n` bytes from address `a` up, addresses modulo `2^w`. -/
def Memory.readBytes (m : Memory) (w a : Nat) : Nat → List Byte
  | 0 => []
  | n + 1 => Memory.read m (a % 2 ^ w) :: Memory.readBytes m w (a + 1) n

/-- The bytes `bs` written from address `a` up, addresses modulo `2^w`. -/
def Memory.writeBytes (m : Memory) (w a : Nat) : List Byte → Memory
  | [] => m
  | b :: bs => Memory.writeBytes (Memory.write m (a % 2 ^ w) b) w (a + 1) bs

/-- `MemRead(a, n)` (20_memory.md R52). -/
def memRead (m : Memory) (w a n : Nat) : BitVec (8 * n) := blockOfBytes n (Memory.readBytes m w a n)

/-- `MemWrite(a, n, v)` (20_memory.md R53). -/
def memWrite (m : Memory) (w a n : Nat) (v : BitVec (8 * n)) : Memory := Memory.writeBytes m w a (bytesOfBlock n v)

/-- `wal(v)`: `u(v)` rounded down to a multiple of `WB` (00_scope.md R14). -/
def wal (c : Config) (v : Word c.W) : Nat := v.toNat - v.toNat % c.WB

/-- `dwal(v)`: `u(v)` rounded down to a multiple of `DWB` (00_scope.md R14). -/
def dwal (c : Config) (v : Word c.W) : Nat := v.toNat - v.toNat % c.DWB

/-! ## Registers, flag, memory, tapes, status -/

/-- `x[n]`, for `n < K` (10_state.md R21). No register past the last exists; the meanings never read one. -/
def State.reg (s : State) (n : Nat) : Word s.cfg.W := (s.regs[n]?).getD 0

/-- `x[n] <- v`, for `n < K` (10_state.md R21). -/
def State.setReg (s : State) (n : Nat) (v : Word s.cfg.W) : State :=
  { s with regs := s.regs.setIfInBounds n v }

/-- `flag <- b` (10_state.md R30). -/
def State.setFlag (s : State) (b : Bool) : State := { s with flag := b }

/-- `pc <- v` (10_state.md R22). -/
def State.setPc (s : State) (v : Word s.cfg.W) : State := { s with pc := v }

/-- Memory replaced by `m`. -/
def State.setMem (s : State) (m : Memory) : State := { s with mem := m }

/-- `rem[t]`; "all but the first two tapes are assumed to be empty" (10_state.md R33, 47_input_operation.md R169). -/
def State.rem (s : State) (t : Nat) : List (Word s.cfg.W) :=
  match t with
  | 0 => s.tape0
  | 1 => s.tape1
  | _ => []

/-- Tape `t` with its next word, if it has one, consumed (47_input_operation.md R169). -/
def State.consume (s : State) (t : Nat) : State :=
  { s with
    tape0 := if t = 0 then s.tape0.tail else s.tape0
    tape1 := if t = 1 then s.tape1.tail else s.tape1 }

/-- `halt(v)`: the bookkeeping of `answer` (10_state.md R37, 48_answer_operation.md R172). -/
def State.setAnswered (s : State) (v : Word s.cfg.W) : State := { s with status := .answered v }

/-- One more step taken (10_state.md R38). -/
def State.countStep (s : State) : State := { s with steps := s.steps + 1 }

/-- `next_pc = trunc_W(u(pc) + PC_INC)` (10_state.md R23). -/
def State.nextPc (s : State) : Word s.cfg.W := BitVec.ofNat s.cfg.W (s.pc.toNat + s.cfg.pcInc)

/-- `pc <- next_pc` (10_state.md R23). -/
def State.advance (s : State) : State := s.setPc s.nextPc

/-! ## Outcomes -/

/-- The next state `k`, if the registers `rs` and operand `A` are operands of the machine, else the refusal of
30_encoding.md R95 (D2). -/
def guarded (s : State) (rs : List Nat) (a : Operand) (k : State) : Host.Outcome State Fault Refusal :=
  match checkOperands s.cfg rs a with
  | some e => .refused (.notAnInstruction e)
  | none => .next k

/-- The outcome with its next state, if it has one, counted as a step (10_state.md R38). -/
def counted : Host.Outcome State Fault Refusal → Host.Outcome State Fault Refusal
  | .next s => .next s.countStep
  | .fault r => .fault r
  | .refused r => .refused r

end Sys2Proof.Machine
end

