-- ==== Sys2Proof/Machine/Operands.lean ====
section
/-!
DEFINITION. The operand forms: operand `A` is an immediate or a register, and there is no other addressing mode
(30_encoding.md R90, 46_memory_operations.md R161, R166).
-/

namespace Sys2Proof.Machine

/-- `valA`: the immediate itself, or the contents of the register (30_encoding.md R90). -/
def State.valA (s : State) : Operand → Word s.cfg.W
  | .imm v => BitVec.ofNat s.cfg.W v
  | .reg n => s.reg n

/-- `x[i] <- r`, `flag <- f`, `pc <- next_pc`: how an instruction with a result and a flag ends (00_scope.md R17). -/
def State.writeResult (s : State) (i : Nat) (r : Word s.cfg.W) (f : Bool) : State :=
  ((s.setReg i r).setFlag f).advance

/-- The byte address of `store.b` and `load.b` (46_memory_operations.md R162, R163). -/
def byteAddr (s : State) (a : Operand) : Nat := (s.valA a).toNat

/-- The word-aligned address of `store.w` and `load.w` (46_memory_operations.md R164, R165). -/
def wordAddr (s : State) (a : Operand) : Nat := wal s.cfg (s.valA a)

end Sys2Proof.Machine
end

