-- ==== Sys2Proof/Machine/Flags.lean ====
section
/-!
DEFINITION. The value that each instruction gives the condition flag (10_state.md R30). Arithmetic is over the integers.
-/

namespace Sys2Proof.Machine

/-- `and`, `or`, `xor`, `not`: 1 iff the result is `0^W` (40_bit_operations.md R120). -/
def zeroFlag {w : Nat} (r : Word w) : Bool := decide (r = 0)

/-- `add`: the bit `G_W` of `G = u(x) + u(y)`, the unsigned carry (41_integer_operations.md R131). -/
def carryFlag {w : Nat} (x y : Word w) : Bool := decide (2 ^ w ≤ x.toNat + y.toNat)

/-- `sub`: `1 − G_W` for `G = u(x) + 2^W − u(y)`, the unsigned borrow (41_integer_operations.md R132). -/
def borrowFlag {w : Nat} (x y : Word w) : Bool := decide (x.toNat + 2 ^ w - y.toNat < 2 ^ w)

/-- `mull`, `umulh`: 1 iff `u(x) × u(y) ∉ U_W` (41_integer_operations.md R133, R134). -/
def umulFlag {w : Nat} (x y : Word w) : Bool := decide (2 ^ w ≤ x.toNat * y.toNat)

/-- `smulh`: 1 iff `s(x) × s(y) ∉ S_W` (41_integer_operations.md R135). -/
def smulFlag {w : Nat} (x y : Word w) : Bool :=
  decide (x.toInt * y.toInt < -2 ^ (w - 1) ∨ 2 ^ (w - 1) - 1 < x.toInt * y.toInt)

/-- `udiv`, `umod`: 1 iff the divisor is zero (41_integer_operations.md R136, R137). -/
def divFlag {w : Nat} (y : Word w) : Bool := decide (y.toNat = 0)

/-- `shl`: the most significant bit of the source (42_shift_operations.md R141). -/
def msbFlag {w : Nat} (x : Word w) : Bool := x.getLsbD (w - 1)

/-- `shr`: the least significant bit of the source (42_shift_operations.md R142). -/
def lsbFlag {w : Nat} (x : Word w) : Bool := x.getLsbD 0

/-- `cmpe`: equality of strings (43_compare_operations.md R146). -/
def equalFlag {w : Nat} (x y : Word w) : Bool := decide (x = y)

/-- `cmpa`: unsigned above (43_compare_operations.md R147). -/
def aboveFlag {w : Nat} (x y : Word w) : Bool := decide (y.toNat < x.toNat)

/-- `cmpae`: unsigned above or equal (43_compare_operations.md R148). -/
def aboveEqualFlag {w : Nat} (x y : Word w) : Bool := decide (y.toNat ≤ x.toNat)

/-- `cmpg`: signed greater (43_compare_operations.md R149). -/
def greaterFlag {w : Nat} (x y : Word w) : Bool := decide (y.toInt < x.toInt)

/-- `cmpge`: signed greater or equal (43_compare_operations.md R150). -/
def greaterEqualFlag {w : Nat} (x y : Word w) : Bool := decide (y.toInt ≤ x.toInt)

/-- `read`: 0 when a word was consumed, 1 when none remained (47_input_operation.md R170). -/
def endOfTapeFlag {w : Nat} (ws : List (Word w)) : Bool := ws.isEmpty

end Sys2Proof.Machine
end

