-- ==== Sys2Proof/Machine/BitOps.lean ====
section
/-!
DEFINITION. Bit operations: and, or, xor, not (40_bit_operations.md R120 to R124).
-/

namespace Sys2Proof.Machine

/-- A bit operation: its result `r` goes to `ri` and the zero test of `r` to `flag` (40_bit_operations.md R120). -/
def bitStep (s : State) (i : Nat) (r : Word s.cfg.W) : State := s.writeResult i r (zeroFlag r)

/-- `and ri rj A` (40_bit_operations.md R121). -/
def execAnd (i j : Nat) (a : Operand) (s : State) : Host.Outcome State Fault Refusal :=
  guarded s [i, j] a (bitStep s i (s.reg j &&& s.valA a))

/-- `or ri rj A` (40_bit_operations.md R122). -/
def execOr (i j : Nat) (a : Operand) (s : State) : Host.Outcome State Fault Refusal :=
  guarded s [i, j] a (bitStep s i (s.reg j ||| s.valA a))

/-- `xor ri rj A` (40_bit_operations.md R123). -/
def execXor (i j : Nat) (a : Operand) (s : State) : Host.Outcome State Fault Refusal :=
  guarded s [i, j] a (bitStep s i (s.reg j ^^^ s.valA a))

/-- `not ri A` (40_bit_operations.md R124). -/
def execNot (i : Nat) (a : Operand) (s : State) : Host.Outcome State Fault Refusal :=
  guarded s [i] a (bitStep s i (~~~ s.valA a))

end Sys2Proof.Machine
end

