-- ==== Sys2Proof/Machine/Compare.lean ====
section
/-!
DEFINITION. Compare operations: cmpe, cmpa, cmpae, cmpg, cmpge (43_compare_operations.md R145 to R150). `ri` is the left
operand and `A` the right one; only `flag` is written.
-/

namespace Sys2Proof.Machine

/-- `cmpe ri A` (43_compare_operations.md R146). -/
def execCmpe (i : Nat) (a : Operand) (s : State) : Host.Outcome State Fault Refusal :=
  guarded s [i] a (s.setFlag (equalFlag (s.reg i) (s.valA a))).advance

/-- `cmpa ri A` (43_compare_operations.md R147). -/
def execCmpa (i : Nat) (a : Operand) (s : State) : Host.Outcome State Fault Refusal :=
  guarded s [i] a (s.setFlag (aboveFlag (s.reg i) (s.valA a))).advance

/-- `cmpae ri A` (43_compare_operations.md R148). -/
def execCmpae (i : Nat) (a : Operand) (s : State) : Host.Outcome State Fault Refusal :=
  guarded s [i] a (s.setFlag (aboveEqualFlag (s.reg i) (s.valA a))).advance

/-- `cmpg ri A` (43_compare_operations.md R149). -/
def execCmpg (i : Nat) (a : Operand) (s : State) : Host.Outcome State Fault Refusal :=
  guarded s [i] a (s.setFlag (greaterFlag (s.reg i) (s.valA a))).advance

/-- `cmpge ri A` (43_compare_operations.md R150). -/
def execCmpge (i : Nat) (a : Operand) (s : State) : Host.Outcome State Fault Refusal :=
  guarded s [i] a (s.setFlag (greaterEqualFlag (s.reg i) (s.valA a))).advance

end Sys2Proof.Machine
end

