-- ==== Sys2Proof/Machine/InputOutput.lean ====
section
/-!
DEFINITION. The input operation read (47_input_operation.md R168 to R170), the answer operation
(48_answer_operation.md R171 to R174), and the unassigned opcodes, which execute as `answer 1` (30_encoding.md R93).
-/

namespace Sys2Proof.Machine

/-- `read ri A`: the next word of tape `u(valA)` if one remains, else `0^W` with `flag = 1`
(47_input_operation.md R169, R170). -/
def execRead (i : Nat) (a : Operand) (s : State) : Host.Outcome State Fault Refusal :=
  guarded s [i] a
    ((s.writeResult i ((s.rem (s.valA a).toNat).headD 0) (endOfTapeFlag (s.rem (s.valA a).toNat))).consume
      (s.valA a).toNat)

/-- `answer` with return value `v`: nothing but the bookkeeping changes, and `pc` is not incremented
(48_answer_operation.md R172). -/
def answerStep (s : State) (v : Word s.cfg.W) : State := s.setAnswered v

/-- `answer A` (48_answer_operation.md R172). -/
def execAnswer (a : Operand) (s : State) : Host.Outcome State Fault Refusal :=
  guarded s [] a (answerStep s (s.valA a))

/-- Opcode 23 executes as `answer 1` (30_encoding.md R93). -/
def execUnassigned23 (s : State) : Host.Outcome State Fault Refusal :=
  .next (answerStep s (s.valA (.imm 1)))

/-- Opcode 24 executes as `answer 1` (30_encoding.md R93). -/
def execUnassigned24 (s : State) : Host.Outcome State Fault Refusal :=
  .next (answerStep s (s.valA (.imm 1)))

/-- Opcode 25 executes as `answer 1` (30_encoding.md R93). -/
def execUnassigned25 (s : State) : Host.Outcome State Fault Refusal :=
  .next (answerStep s (s.valA (.imm 1)))

end Sys2Proof.Machine
end

