-- ==== Sys2Proof/Machine/Integer.lean ====
section
/-!
DEFINITION. Integer operations: add, sub, mull, umulh, smulh, udiv, umod (41_integer_operations.md R130 to R138).
Arithmetic is over the integers and only the final cut to `W` bits wraps (R130).
-/

namespace Sys2Proof.Machine

/-- The `W` least significant bits of `u(x) + u(y)` (41_integer_operations.md R131). -/
def addResult {w : Nat} (x y : Word w) : Word w := BitVec.ofNat w (x.toNat + y.toNat)

/-- The `W` least significant bits of `u(x) + 2^W − u(y)` (41_integer_operations.md R132). -/
def subResult {w : Nat} (x y : Word w) : Word w := BitVec.ofNat w (x.toNat + 2 ^ w - y.toNat)

/-- The `W` least significant bits of the unsigned product (41_integer_operations.md R133). -/
def mullResult {w : Nat} (x y : Word w) : Word w := BitVec.ofNat w (x.toNat * y.toNat)

/-- Bits `2W−1 : W` of the unsigned product, written in `2W` bits (41_integer_operations.md R134; decision D14,
notes/assumptions/11.md). -/
def umulhResult {w : Nat} (x y : Word w) : Word w := BitVec.ofNat w (x.toNat * y.toNat / 2 ^ w)

/-- The literal reading of `smulh`: the sign of the signed product, then bits `2W−2 : W` of its absolute value
(41_integer_operations.md R135; decisions D5, D14, D18, notes/assumptions/8.md and 11.md). -/
def smulhLiteral {w : Nat} (x y : Word w) : Word w :=
  BitVec.ofNat w ((if x.toInt * y.toInt < 0 then 2 ^ (w - 1) else 0)
    + (x.toInt * y.toInt).natAbs / 2 ^ w % 2 ^ (w - 1))

/-- The two's complement reading of `smulh`: `trunc_W(⌊P / 2^W⌋)` of the signed product `P`
(41_integer_operations.md R135; decision D5, notes/assumptions/8.md). -/
def smulhTwosComplement {w : Nat} (x y : Word w) : Word w := BitVec.ofInt w ((x.toInt * y.toInt) / 2 ^ w)

/-- The result of `smulh` under the reading that the machine's parameter names (41_integer_operations.md R135). -/
def smulhResult {w : Nat} (reading : SmulhReading) (x y : Word w) : Word w :=
  match reading with
  | .literal => smulhLiteral x y
  | .twosComplement => smulhTwosComplement x y

/-- The unsigned quotient, `0^W` for a zero divisor (41_integer_operations.md R136). -/
def udivResult {w : Nat} (x y : Word w) : Word w :=
  if y.toNat = 0 then 0 else BitVec.ofNat w (x.toNat / y.toNat)

/-- The unsigned remainder, `0^W` for a zero divisor (41_integer_operations.md R137). -/
def umodResult {w : Nat} (x y : Word w) : Word w :=
  if y.toNat = 0 then 0 else BitVec.ofNat w (x.toNat % y.toNat)

/-- `add ri rj A` (41_integer_operations.md R131). -/
def execAdd (i j : Nat) (a : Operand) (s : State) : Host.Outcome State Fault Refusal :=
  guarded s [i, j] a (s.writeResult i (addResult (s.reg j) (s.valA a)) (carryFlag (s.reg j) (s.valA a)))

/-- `sub ri rj A` (41_integer_operations.md R132). -/
def execSub (i j : Nat) (a : Operand) (s : State) : Host.Outcome State Fault Refusal :=
  guarded s [i, j] a (s.writeResult i (subResult (s.reg j) (s.valA a)) (borrowFlag (s.reg j) (s.valA a)))

/-- `mull ri rj A` (41_integer_operations.md R133). -/
def execMull (i j : Nat) (a : Operand) (s : State) : Host.Outcome State Fault Refusal :=
  guarded s [i, j] a (s.writeResult i (mullResult (s.reg j) (s.valA a)) (umulFlag (s.reg j) (s.valA a)))

/-- `umulh ri rj A` (41_integer_operations.md R134). -/
def execUmulh (i j : Nat) (a : Operand) (s : State) : Host.Outcome State Fault Refusal :=
  guarded s [i, j] a (s.writeResult i (umulhResult (s.reg j) (s.valA a)) (umulFlag (s.reg j) (s.valA a)))

/-- `smulh ri rj A` (41_integer_operations.md R135). -/
def execSmulh (i j : Nat) (a : Operand) (s : State) : Host.Outcome State Fault Refusal :=
  guarded s [i, j] a
    (s.writeResult i (smulhResult s.cfg.smulh (s.reg j) (s.valA a)) (smulFlag (s.reg j) (s.valA a)))

/-- `udiv ri rj A` (41_integer_operations.md R136). -/
def execUdiv (i j : Nat) (a : Operand) (s : State) : Host.Outcome State Fault Refusal :=
  guarded s [i, j] a (s.writeResult i (udivResult (s.reg j) (s.valA a)) (divFlag (s.valA a)))

/-- `umod ri rj A` (41_integer_operations.md R137). -/
def execUmod (i j : Nat) (a : Operand) (s : State) : Host.Outcome State Fault Refusal :=
  guarded s [i, j] a (s.writeResult i (umodResult (s.reg j) (s.valA a)) (divFlag (s.valA a)))

end Sys2Proof.Machine
end

