-- ==== Sys2Proof/Machine/Jump.lean ====
section
/-!
DEFINITION. Jump operations: jmp, cjmp, cnjmp (45_jump_operations.md R156 to R159). The target is absolute and any
`W`-bit value; only `pc` is written.
-/

namespace Sys2Proof.Machine

/-- `jmp A` (45_jump_operations.md R157). -/
def execJmp (a : Operand) (s : State) : Host.Outcome State Fault Refusal :=
  guarded s [] a (s.setPc (s.valA a))

/-- `cjmp A` (45_jump_operations.md R158). -/
def execCjmp (a : Operand) (s : State) : Host.Outcome State Fault Refusal :=
  guarded s [] a (if s.flag then s.setPc (s.valA a) else s.advance)

/-- `cnjmp A` (45_jump_operations.md R159). -/
def execCnjmp (a : Operand) (s : State) : Host.Outcome State Fault Refusal :=
  guarded s [] a (if s.flag then s.advance else s.setPc (s.valA a))

end Sys2Proof.Machine
end

