-- ==== Sys2Proof/Machine/LoadStore.lean ====
section
/-!
DEFINITION. Memory operations: store.b, load.b, store.w, load.w (46_memory_operations.md R161 to R166). None writes
`flag`; a misaligned word address is rounded down, not faulted (20_memory.md R56).
-/

namespace Sys2Proof.Machine

/-- `store.b A ri` (46_memory_operations.md R162). -/
def execStoreB (a : Operand) (i : Nat) (s : State) : Host.Outcome State Fault Refusal :=
  guarded s [i] a (s.setMem (memWrite s.mem s.cfg.W (byteAddr s a) 1 ((s.reg i).extractLsb' 0 8))).advance

/-- `load.b ri A`, zero-extended (46_memory_operations.md R163). -/
def execLoadB (i : Nat) (a : Operand) (s : State) : Host.Outcome State Fault Refusal :=
  guarded s [i] a (s.setReg i ((memRead s.mem s.cfg.W (byteAddr s a) 1).setWidth s.cfg.W)).advance

/-- `store.w A ri` (46_memory_operations.md R164). -/
def execStoreW (a : Operand) (i : Nat) (s : State) : Host.Outcome State Fault Refusal :=
  guarded s [i] a (s.setMem (memWrite s.mem s.cfg.W (wordAddr s a) s.cfg.WB (s.reg i))).advance

/-- `load.w ri A` (46_memory_operations.md R165). -/
def execLoadW (i : Nat) (a : Operand) (s : State) : Host.Outcome State Fault Refusal :=
  guarded s [i] a (s.setReg i (memRead s.mem s.cfg.W (wordAddr s a) s.cfg.WB)).advance

end Sys2Proof.Machine
end

