-- ==== Sys2Proof/Machine/Move.lean ====
section
/-!
DEFINITION. Move operations: mov, cmov (44_move_operations.md R152 to R154). Neither writes `flag`.
-/

namespace Sys2Proof.Machine

/-- `mov ri A` (44_move_operations.md R153). -/
def execMov (i : Nat) (a : Operand) (s : State) : Host.Outcome State Fault Refusal :=
  guarded s [i] a (s.setReg i (s.valA a)).advance

/-- `cmov ri A`; the operands are checked whatever `flag` is (44_move_operations.md R154). -/
def execCmov (i : Nat) (a : Operand) (s : State) : Host.Outcome State Fault Refusal :=
  guarded s [i] a (if s.flag then (s.setReg i (s.valA a)).advance else s.advance)

end Sys2Proof.Machine
end

