-- ==== Sys2Proof/Machine/Shift.lean ====
section
/-!
DEFINITION. Shift operations: shl, shr, both logical (42_shift_operations.md R140 to R142). The amount is the whole
unsigned value of `A`; for amounts of `W` or more the result is `0^W` (decision D7, notes/assumptions/10.md).
-/

namespace Sys2Proof.Machine

/-- The source shifted left by `n`, zeros entering at the right (42_shift_operations.md R141). -/
def shlResult {w : Nat} (x : Word w) (n : Nat) : Word w :=
  if w ≤ n then 0 else BitVec.ofNat w (x.toNat * 2 ^ n)

/-- The source shifted right by `n`, zeros entering at the left (42_shift_operations.md R142). -/
def shrResult {w : Nat} (x : Word w) (n : Nat) : Word w :=
  if w ≤ n then 0 else BitVec.ofNat w (x.toNat / 2 ^ n)

/-- `shl ri rj A` (42_shift_operations.md R141). -/
def execShl (i j : Nat) (a : Operand) (s : State) : Host.Outcome State Fault Refusal :=
  guarded s [i, j] a (s.writeResult i (shlResult (s.reg j) (s.valA a).toNat) (msbFlag (s.reg j)))

/-- `shr ri rj A` (42_shift_operations.md R142). -/
def execShr (i j : Nat) (a : Operand) (s : State) : Host.Outcome State Fault Refusal :=
  guarded s [i, j] a (s.writeResult i (shrResult (s.reg j) (s.valA a).toNat) (lsbFlag (s.reg j)))

end Sys2Proof.Machine
end

