-- ==== Sys2Proof/Machine/Dispatch.lean ====
section
/-!
DEFINITION. The meaning of each instruction, one arm for each constructor of `Instr`.
-/

namespace Sys2Proof.Machine

/-- Executing an instruction (10_state.md R38). -/
def exec (i : Instr) (s : State) : Host.Outcome State Fault Refusal :=
  match i with
  | .and ri rj a => Sys2Proof.Machine.execAnd ri rj a s
  | .or ri rj a => Sys2Proof.Machine.execOr ri rj a s
  | .xor ri rj a => Sys2Proof.Machine.execXor ri rj a s
  | .not ri a => Sys2Proof.Machine.execNot ri a s
  | .add ri rj a => Sys2Proof.Machine.execAdd ri rj a s
  | .sub ri rj a => Sys2Proof.Machine.execSub ri rj a s
  | .mull ri rj a => Sys2Proof.Machine.execMull ri rj a s
  | .umulh ri rj a => Sys2Proof.Machine.execUmulh ri rj a s
  | .smulh ri rj a => Sys2Proof.Machine.execSmulh ri rj a s
  | .udiv ri rj a => Sys2Proof.Machine.execUdiv ri rj a s
  | .umod ri rj a => Sys2Proof.Machine.execUmod ri rj a s
  | .shl ri rj a => Sys2Proof.Machine.execShl ri rj a s
  | .shr ri rj a => Sys2Proof.Machine.execShr ri rj a s
  | .cmpe ri a => Sys2Proof.Machine.execCmpe ri a s
  | .cmpa ri a => Sys2Proof.Machine.execCmpa ri a s
  | .cmpae ri a => Sys2Proof.Machine.execCmpae ri a s
  | .cmpg ri a => Sys2Proof.Machine.execCmpg ri a s
  | .cmpge ri a => Sys2Proof.Machine.execCmpge ri a s
  | .mov ri a => Sys2Proof.Machine.execMov ri a s
  | .cmov ri a => Sys2Proof.Machine.execCmov ri a s
  | .jmp a => Sys2Proof.Machine.execJmp a s
  | .cjmp a => Sys2Proof.Machine.execCjmp a s
  | .cnjmp a => Sys2Proof.Machine.execCnjmp a s
  | .storeB a ri => Sys2Proof.Machine.execStoreB a ri s
  | .loadB ri a => Sys2Proof.Machine.execLoadB ri a s
  | .storeW a ri => Sys2Proof.Machine.execStoreW a ri s
  | .loadW ri a => Sys2Proof.Machine.execLoadW ri a s
  | .read ri a => Sys2Proof.Machine.execRead ri a s
  | .answer a => Sys2Proof.Machine.execAnswer a s
  | .unassigned23 => Sys2Proof.Machine.execUnassigned23 s
  | .unassigned24 => Sys2Proof.Machine.execUnassigned24 s
  | .unassigned25 => Sys2Proof.Machine.execUnassigned25 s

end Sys2Proof.Machine
end

