-- ==== Sys2Proof/Machine/Fetch.lean ====
section
/-!
DEFINITION. Instruction fetch in both variants (10_state.md R24 to R29), when a run has ended (48_answer_operation.md
R173), and placing one instruction where the next step fetches.
-/

namespace Sys2Proof.Machine

/-- A check's answer as a refusal. -/
def refusing : Except DecodeError Instr → Except Refusal Instr
  | .ok i => .ok i
  | .error e => .error (.notAnInstruction e)

/-- Fetch when `ARCH = hv`: the `pc`-th instruction of `P`, and `answer 1` where there is none (10_state.md R25). -/
def fetchHv (s : State) : Except Refusal Instr :=
  if s.prog.length ≤ 2 ^ s.cfg.W then refusing (checkInstr s.cfg (s.prog.getD s.pc.toNat (.answer (.imm 1))))
  else .error .programTooLong

/-- The double word that a vn machine fetches, at `pc` rounded down (10_state.md R28, R29). -/
def fetchWord (s : State) : BitVec s.cfg.EW := memRead s.mem s.cfg.W (dwal s.cfg s.pc) s.cfg.DWB

/-- Fetch when `ARCH = vn` (10_state.md R28). -/
def fetchVn (s : State) : Except Refusal Instr := refusing (decode s.cfg (fetchWord s))

/-- The instruction that the next step executes (10_state.md R25, R28, R38). -/
def fetch (s : State) : Except Refusal Instr :=
  if s.cfg.legal then
    match s.cfg.arch with
    | .hv => fetchHv s
    | .vn => fetchVn s
  else .error .illegalParameters

/-- The run has ended and the machine is one that halts; one that stalls fetches the same `answer` again
(48_answer_operation.md R173). -/
def hasHalted (s : State) : Bool :=
  match s.status, s.cfg.answerMode with
  | .answered _, .halt => true
  | _, _ => false

/-- The list with `i` at place `n`, filled up with `answer 1`, the instruction fetched by default (10_state.md R25). -/
def placeInstr : List Instr → Nat → Instr → List Instr
  | [], 0, i => [i]
  | [], n + 1, i => .answer (.imm 1) :: placeInstr [] n i
  | _ :: p, 0, i => i :: p
  | j :: p, n + 1, i => j :: placeInstr p n i

/-- The double word whose low `nbits` bits are those of `w` and whose other bits are 0. -/
def tableWord (c : Config) (nbits w : Nat) : BitVec c.EW := BitVec.ofNat c.EW (w % 2 ^ nbits)

/-- The state with that double word where the next step fetches: in memory (vn), or, as the instruction it encodes, in
the program (hv; 92_eei_decisions.md D11). DESIGN CHOICE (notes/assumptions/26.md): an hv machine whose parameters have no
encoding (00_scope.md R10) gets what `fieldsOf` reads, from fields that overlap, where the spec gives the word no
meaning. -/
def placeFetchWord (s : State) (nbits w : Nat) : State :=
  match s.cfg.arch with
  | .hv => { s with prog := placeInstr s.prog s.pc.toNat (fieldsOf s.cfg (tableWord s.cfg nbits w)).instr }
  | .vn => s.setMem (memWrite s.mem s.cfg.W (dwal s.cfg s.pc) s.cfg.DWB (tableWord s.cfg nbits w))

end Sys2Proof.Machine
end

