-- ==== Sys2Proof/Machine/Step.lean ====
section
/-!
DEFINITION. One step of the machine (10_state.md R38).
-/

namespace Sys2Proof.Machine

/-- One step: fetch, execute, count (10_state.md R38). A run that has ended on a machine that halts has no further step
(48_answer_operation.md R173, R178). -/
def step (s : State) : Host.Outcome State Fault Refusal :=
  if hasHalted s then .fault .halted
  else
    match fetch s with
    | .error r => .refused r
    | .ok i => counted (exec i s)

/-- `s` with the instruction whose bits are the low `nbits` bits of `w` placed where `step` fetches. -/
def State.withFetchWord (s : State) (nbits w : Nat) : State := placeFetchWord s nbits w

end Sys2Proof.Machine
end

