-- ==== Sys2Proof/Machine/Program.lean ====
section
/-!
DEFINITION. Programs before step 1: instruction numbers (30_encoding.md R105), the vn memory image (10_state.md R42), the
loader (70_reset_and_hazards.md R202, R203), and the preamble of a proper program (R205, R206).
-/

namespace Sys2Proof.Machine

/-- The number of the `n`-th instruction of a program, counting from 0: the value of `pc` at which it executes
(30_encoding.md R105). -/
def instrNumber (c : Config) (n : Nat) : Nat :=
  match c.arch with
  | .hv => n
  | .vn => n * c.DWB

/-- The bytes of a vn program from address 0 up, one double word for each instruction (10_state.md R42). -/
def imageBytes (c : Config) : List Instr → List Byte
  | [] => []
  | i :: p => encodeBytes c i ++ imageBytes c p

/-- The first reason, if there is one, for which the list is no program of the machine (10_state.md R24). -/
def checkProgram (c : Config) : List Instr → Option DecodeError
  | [] => none
  | i :: p =>
    match checkOperands c i.registers i.operandA with
    | some e => some e
    | none => checkProgram c p

/-- The loader: the initial state for the program `p` and the tapes `x` and `w`. In vn the bytes `initMem` follow the
program in memory; they are `INIT_MEM`, or the initial data of a more general image (10_state.md R42;
70_reset_and_hazards.md R202, R203). -/
def load (c : Config) (p : List Instr) (initMem : List Byte) (x w : List (Word c.W)) : Except Refusal State :=
  if c.legal then
    match checkProgram c p with
    | some e => .error (.notAnInstruction e)
    | none =>
      match c.arch with
      | .hv => if p.length ≤ 2 ^ c.W then .ok (.initial c p [] x w) else .error .programTooLong
      | .vn =>
        if (imageBytes c p ++ initMem).length ≤ 2 ^ c.W then
          .ok (.initial c [] (Memory.writeBytes [] c.W 0 (imageBytes c p ++ initMem)) x w)
        else .error .programTooLong
  else .error .illegalParameters

/-- `inc` of Definition 6.1 (70_reset_and_hazards.md R206). -/
def preambleInc (c : Config) : Nat :=
  match c.arch with
  | .hv => 1
  | .vn => c.WB

/-- The preamble of a proper program, as printed (70_reset_and_hazards.md R206; 90_conflicts.md C5). -/
def preamble (c : Config) : List Instr :=
  [ .storeW (.imm 0) 0,
    .mov 0 (.imm (2 ^ (c.W - 1))),
    .read 1 (.imm 0),
    .cjmp (.imm (instrNumber c 7)),
    .add 0 0 (.imm (preambleInc c)),
    .storeW (.reg 0) 1,
    .jmp (.imm (instrNumber c 2)),
    .storeW (.imm (2 ^ (c.W - 1))) 0 ]

/-- The program starts with the preamble (70_reset_and_hazards.md R206). The machine runs improper programs by the same
rules (R205). -/
def isProper (c : Config) (p : List Instr) : Bool := (preamble c).isPrefixOf p

end Sys2Proof.Machine
end

