-- ==== Sys2Proof/Machine/Assembly.lean ====
section
/-!
DEFINITION. The assembler: from the text of a program file to the parameters and the list of instructions
(30_encoding.md R100 to R108), in the strict reading of decision D15 (notes/assumptions/20.md). It acts before step 1 and
is no part of the machine.
-/

namespace Sys2Proof.Machine

/-- Why a text is refused by the strict assembler (30_encoding.md R108). -/
inductive AsmError where
  /-- The first line is not the header of R100, or its parameters are those of no TinyRAM machine. -/
  | header
  /-- A line is not of the form of R101 to R104. -/
  | line (text : List Char)
  /-- A label is defined more than once (R102). -/
  | labelTwice (name : List Char)
  /-- A label that is used is not defined, or no instruction follows its definition (R102; N12). -/
  | labelUndefined (name : List Char)
  /-- A register number is `K` or more (R103, R108). -/
  | register (n : Nat)
  /-- More instructions than the machine can hold (R105, 10_state.md R42). -/
  | tooLong
  deriving DecidableEq, Repr

/-! ## Characters and pieces of text -/

/-- Whitespace is space and horizontal tab (30_encoding.md R108). -/
def isBlankChar (ch : Char) : Bool := ch = ' ' || ch = '\t'

/-- Lines are separated by CR, LF or CR/LF; a CR/LF read as two ends of line only adds an empty line (30_encoding.md
R100, R101). -/
def isLineEnd (ch : Char) : Bool := ch = '\n' || ch = '\r'

/-- A decimal digit. -/
def isDigitChar (ch : Char) : Bool := 48 ≤ ch.toNat && ch.toNat ≤ 57

/-- A character of a label after its underscore (30_encoding.md R102). -/
def isLabelChar (ch : Char) : Bool :=
  isDigitChar ch || (65 ≤ ch.toNat && ch.toNat ≤ 90) || (97 ≤ ch.toNat && ch.toNat ≤ 122) || ch = '_'

/-- The pieces of a text between the characters that `p` picks. -/
def splitAtChars (p : Char → Bool) : List Char → List (List Char)
  | [] => [[]]
  | ch :: rest =>
    if p ch then [] :: splitAtChars p rest
    else
      match splitAtChars p rest with
      | [] => [[ch]]
      | piece :: pieces => (ch :: piece) :: pieces

/-- The text without whitespace at its start. -/
def trimStart (cs : List Char) : List Char := cs.dropWhile isBlankChar

/-- The text without whitespace at either end. -/
def trimBoth (cs : List Char) : List Char := (trimStart (trimStart cs).reverse).reverse

/-- The number that decimal digits write, read on from `acc`. -/
def digitsFrom (acc : Nat) : List Char → Option Nat
  | [] => some acc
  | ch :: rest => if isDigitChar ch then digitsFrom (10 * acc + (ch.toNat - 48)) rest else none

/-- An unsigned decimal number: one digit or more. Zeros may stand in front, which is a DESIGN CHOICE
(notes/assumptions/20.md) where the spec says only "in decimal": a register number, and the header's `W` and `K`. -/
def decimal : List Char → Option Nat
  | [] => none
  | cs => digitsFrom 0 cs

/-! ## The header -/

/-- The number after the two characters `key` and `=`, "in decimal representation" (30_encoding.md R100). DESIGN CHOICE
(notes/assumptions/20.md): zeros may stand in front of it, as in `W=016`. -/
def headerNumber (key : Char) : List Char → Option Nat
  | k :: '=' :: digits => if k = key then decimal digits else none
  | _ => none

/-- The variant that the `M` field names (30_encoding.md R100). -/
def headerArch (field : List Char) : Option Arch :=
  if field = "M=hv".toList then some .hv
  else if field = "M=vn".toList then some .vn
  else none

/-- The parameters of the header line, its fields separated by single spaces (30_encoding.md R100, R108;
70_reset_and_hazards.md R204). The header does not name `ANSWER_MODE` and `SMULH_READING`. The line
is this string and nothing else, in the strict reading of decision D15 (N13; notes/assumptions/20.md). -/
def parseHeader (am : AnswerMode) (sr : SmulhReading) (text : List Char) : Option Config :=
  match splitAtChars (· = ' ') text with
  | [f0, f1, f2, f3, f4, f5] =>
    if f0 = ";".toList ∧ f1 = "TinyRAM".toList ∧ f2 = "V=2.000".toList then
      match headerArch f3, headerNumber 'W' f4, headerNumber 'K' f5 with
      | some arch, some w, some k =>
        let c : Config := { logWB := Nat.log2 (w / 8), K := k, arch := arch, answerMode := am, smulh := sr }
        if c.W = w ∧ c.legal then some c else none
      | _, _, _ => none
    else none
  | _ => none

/-! ## Lines -/

/-- An operand as written (30_encoding.md R103). -/
inductive Token where
  | reg (n : Nat)
  | int (z : Int)
  | label (name : List Char)
  deriving DecidableEq, Repr

/-- A label: an underscore and one or more of its characters (30_encoding.md R102). -/
def isLabel : List Char → Bool
  | '_' :: rest => !rest.isEmpty && rest.all isLabelChar
  | _ => false

/-- One operand (30_encoding.md R103). -/
def parseToken (cs : List Char) : Option Token :=
  match cs with
  | 'r' :: rest => (decimal rest).map .reg
  | '-' :: rest => (decimal rest).map fun n => .int (-(n : Int))
  | '_' :: _ => if isLabel cs then some (.label cs) else none
  | _ => (decimal cs).map fun n => .int (n : Int)

/-- The operands, separated by commas that whitespace may surround (30_encoding.md R103). -/
def parseTokens : List (List Char) → Option (List Token)
  | [] => some []
  | piece :: pieces =>
    match parseToken (trimBoth piece), parseTokens pieces with
    | some t, some ts => some (t :: ts)
    | _, _ => none

/-- An instruction as written: its mnemonic and operands. -/
structure SourceInstr where
  mnemonic : List Char
  operands : List Token
  deriving DecidableEq, Repr

/-- What a line holds (30_encoding.md R101). -/
structure SourceLine where
  label : Option (List Char)
  instr : Option SourceInstr
  deriving DecidableEq, Repr

/-- The instruction of a line, its text free of label, comment and surrounding whitespace (30_encoding.md R103). -/
def parseInstr (cs : List Char) : Option (Option SourceInstr) :=
  if cs.isEmpty then some none
  else
    match parseTokens (splitAtChars (· = ',') (cs.dropWhile fun ch => !isBlankChar ch)) with
    | some ts => some (some { mnemonic := cs.takeWhile fun ch => !isBlankChar ch, operands := ts })
    | none => none

/-- The rest of a line after its leading whitespace, with the comment taken off: an optional label with its colon, then
an optional instruction (30_encoding.md R101, R102). DESIGN CHOICE (notes/assumptions/20.md): no whitespace stands before the
colon, and none is needed after it. -/
def parseBody (cs : List Char) : Option SourceLine :=
  match cs with
  | '_' :: _ =>
    match cs.dropWhile isLabelChar with
    | ':' :: rest =>
      if isLabel (cs.takeWhile isLabelChar) then
        (parseInstr (trimBoth rest)).map fun i => { label := some (cs.takeWhile isLabelChar), instr := i }
      else none
    | _ => none
  | _ => (parseInstr (trimBoth cs)).map fun i => { label := none, instr := i }

/-- One line (30_encoding.md R101). -/
def parseLine (cs : List Char) : Option SourceLine := parseBody (trimStart (cs.takeWhile fun ch => ch != ';'))

/-- All lines after the header. -/
def parseLines : List (List Char) → Except AsmError (List SourceLine)
  | [] => .ok []
  | l :: ls =>
    match parseLine l, parseLines ls with
    | some x, .ok xs => .ok (x :: xs)
    | none, _ => .error (.line l)
    | _, .error e => .error e

/-! ## Labels and instructions -/

/-- Each label with the place, among the instructions, of the first instruction that follows it; `n` instructions stand
before these lines (30_encoding.md R102). -/
def labelPlaces (n : Nat) : List SourceLine → List (List Char × Nat)
  | [] => []
  | l :: ls =>
    let rest := labelPlaces (if l.instr.isSome then n + 1 else n) ls
    match l.label with
    | some name => (name, n) :: rest
    | none => rest

/-- The first label that is defined a second time, if there is one (30_encoding.md R102). -/
def labelTwice : List (List Char × Nat) → Option (List Char)
  | [] => none
  | p :: ps => if ps.any fun q => q.1 = p.1 then some p.1 else labelTwice ps

/-- An integer `a` "represents the W-bit word x such that [x]_u ≡ a mod 2^W" (30_encoding.md R103). -/
def immediateOf (c : Config) (z : Int) : Nat := (z % (2 ^ c.W : Nat)).toNat

/-- Operand `A` as written: a register, an integer or a label (30_encoding.md R103 to R106). `count` is the number of
instructions. -/
def resolveA (c : Config) (places : List (List Char × Nat)) (count : Nat) : Token → Except AsmError Operand
  | .reg n => if n < c.K then .ok (.reg n) else .error (.register n)
  | .int z => .ok (.imm (immediateOf c z))
  | .label name =>
    match places.find? fun p => p.1 = name with
    | some p => if p.2 < count then .ok (.imm (immediateOf c (instrNumber c p.2))) else .error (.labelUndefined name)
    | none => .error (.labelUndefined name)

/-- The assembly forms (30_encoding.md R104). -/
inductive AsmForm where
  | rra (f : Nat → Nat → Operand → Instr)
  | ra (f : Nat → Operand → Instr)
  | a (f : Operand → Instr)
  | ar (f : Operand → Nat → Instr)

/-- The mnemonics, spelled in lower case, with their forms (30_encoding.md R104). -/
def asmForms : List (String × AsmForm) :=
  [ ("and", .rra .and), ("or", .rra .or), ("xor", .rra .xor), ("not", .ra .not),
    ("add", .rra .add), ("sub", .rra .sub), ("mull", .rra .mull), ("umulh", .rra .umulh), ("smulh", .rra .smulh),
    ("udiv", .rra .udiv), ("umod", .rra .umod), ("shl", .rra .shl), ("shr", .rra .shr),
    ("cmpe", .ra .cmpe), ("cmpa", .ra .cmpa), ("cmpae", .ra .cmpae), ("cmpg", .ra .cmpg), ("cmpge", .ra .cmpge),
    ("mov", .ra .mov), ("cmov", .ra .cmov), ("jmp", .a .jmp), ("cjmp", .a .cjmp), ("cnjmp", .a .cnjmp),
    ("store.b", .ar .storeB), ("load.b", .ra .loadB), ("store.w", .ar .storeW), ("load.w", .ra .loadW),
    ("read", .ra .read), ("answer", .a .answer) ]

/-- The form of a mnemonic, if it is one. -/
def formOf (name : List Char) : Option AsmForm := (asmForms.find? fun p => p.1.toList = name).map Prod.snd

/-- One instruction from its operands, by its form (30_encoding.md R104, R106). -/
def buildInstr (c : Config) (resolve : Token → Except AsmError Operand) (i : SourceInstr) : Except AsmError Instr :=
  match formOf i.mnemonic, i.operands with
  | some (.rra f), [.reg ri, .reg rj, t] =>
    if ri < c.K then if rj < c.K then (resolve t).map (f ri rj) else .error (.register rj) else .error (.register ri)
  | some (.ra f), [.reg ri, t] => if ri < c.K then (resolve t).map (f ri) else .error (.register ri)
  | some (.a f), [t] => (resolve t).map f
  | some (.ar f), [t, .reg ri] =>
    if ri < c.K then (resolve t).map fun x => f x ri else .error (.register ri)
  | _, _ => .error (.line i.mnemonic)

/-- The instructions of the lines, in order (30_encoding.md R105, R106). -/
def buildAll (c : Config) (resolve : Token → Except AsmError Operand) : List SourceInstr → Except AsmError (List Instr)
  | [] => .ok []
  | i :: is =>
    match buildInstr c resolve i, buildAll c resolve is with
    | .ok x, .ok xs => .ok (x :: xs)
    | .error e, _ => .error e
    | _, .error e => .error e

/-- The program of the parsed lines. -/
def assembleLines (c : Config) (ls : List SourceLine) : Except AsmError (List Instr) :=
  let places := labelPlaces 0 ls
  let is := ls.filterMap SourceLine.instr
  if 2 ^ c.W < instrNumber c is.length then .error .tooLong
  else
    match labelTwice places with
    | some name => .error (.labelTwice name)
    | none => buildAll c (resolveA c places is.length) is

/-- The assembler (30_encoding.md R100 to R108): the parameters of the header and the program. -/
def assemble (am : AnswerMode) (sr : SmulhReading) (text : List Char) : Except AsmError (Config × List Instr) :=
  match splitAtChars isLineEnd text with
  | [] => .error .header
  | h :: ls =>
    match parseHeader am sr h with
    | none => .error .header
    | some c =>
      match parseLines ls with
      | .error e => .error e
      | .ok xs =>
        match assembleLines c xs with
        | .error e => .error e
        | .ok p => .ok (c, p)

end Sys2Proof.Machine
end

