-- ==== Sys2Proof/Safety.lean ====
section
/-!
DEFINITION. The terms in which statements about the machine are made: what can be read off a state as integers and
bytes, what a state leaves unchanged, the well-formed states, and accepting computations (48_answer_operation.md R175 to
R178). TinyRAM has no error state (60_exceptions.md R180): a run is safe when it is refused nothing.
-/

namespace Sys2Proof.Machine

/-! ## What can be read off a state -/

/-- `u(pc)` (10_state.md R22). -/
def State.uPc (s : State) : Nat := s.pc.toNat

/-- `u(x[n])` (00_scope.md R14). -/
def State.uReg (s : State) (n : Nat) : Nat := (s.reg n).toNat

/-- `s(x[n])` (00_scope.md R14). -/
def State.sReg (s : State) (n : Nat) : Int := (s.reg n).toInt

/-- `u(valA)` (00_scope.md R14, 30_encoding.md R90). -/
def State.uA (s : State) (a : Operand) : Nat := (s.valA a).toNat

/-- `s(valA)` (00_scope.md R14, 30_encoding.md R90). -/
def State.sA (s : State) (a : Operand) : Int := (s.valA a).toInt

/-- `Mem[a]` (20_memory.md R51). -/
def State.byteAt (s : State) (a : Nat) : Byte := Memory.read s.mem a

/-- The words that remain on tape `t`, as unsigned integers (10_state.md R33). -/
def State.uTape (s : State) (t : Nat) : List Nat := (s.rem t).map BitVec.toNat

/-- The return value `u(v)` that a status holds, `none` while the run goes on (10_state.md R37). -/
def Status.value {w : Nat} : Status w → Option Nat
  | .running => none
  | .answered v => some v.toNat

/-- The return value `u(v)` of a run that has ended, `none` while it runs (10_state.md R37). -/
def State.answered (s : State) : Option Nat := s.status.value

/-! ## What stays as it was -/

/-- Every register but those numbered in `ex` is as before. -/
def SameRegs (ex : List Nat) (s t : State) : Prop := ∀ n, n ∉ ex → t.uReg n = s.uReg n

/-- Every byte of memory outside the `n` bytes from address `a` up is as before. -/
def SameMemOutside (a n : Nat) (s t : State) : Prop := ∀ b, b < a ∨ a + n ≤ b → t.byteAt b = s.byteAt b

/-- Every byte of memory is as before. -/
def SameMem (s t : State) : Prop := ∀ b, t.byteAt b = s.byteAt b

/-- Both tapes are as before. -/
def SameTapes (s t : State) : Prop := ∀ n, t.uTape n = s.uTape n

/-- The parameters and the hv program are as before (10_state.md R24). -/
def SameMachine (s t : State) : Prop := t.cfg = s.cfg ∧ t.prog = s.prog

/-- The bookkeeping is as before (10_state.md R37). -/
def SameBook (s t : State) : Prop := t.answered = s.answered ∧ t.steps = s.steps

/-- What an instruction other than `read` and `answer` leaves unchanged beside registers, flag, memory and `pc`. -/
def SameRest (s t : State) : Prop := SameMachine s t ∧ SameTapes s t ∧ SameBook s t

/-- `pc` went to `next_pc` (10_state.md R23). -/
def Advanced (s t : State) : Prop := t.uPc = (s.uPc + s.cfg.pcInc) % 2 ^ s.cfg.W

/-- The instruction writes `r` to register `i` and `f` to the flag, advances `pc`, and does nothing else
(00_scope.md R17). -/
def WritesResult (s t : State) (i r : Nat) (f : Bool) : Prop :=
  t.uReg i = r ∧ t.flag = f ∧ Advanced s t ∧ SameRegs [i] s t ∧ SameMem s t ∧ SameRest s t

/-- The instruction writes `f` to the flag, advances `pc`, and does nothing else (43_compare_operations.md R145). -/
def WritesFlag (s t : State) (f : Bool) : Prop :=
  t.flag = f ∧ Advanced s t ∧ SameRegs [] s t ∧ SameMem s t ∧ SameRest s t

/-- The instruction writes `p` to `pc` and does nothing else (45_jump_operations.md R156). -/
def WritesPc (s t : State) (p : Nat) : Prop :=
  t.uPc = p ∧ t.flag = s.flag ∧ SameRegs [] s t ∧ SameMem s t ∧ SameRest s t

/-- The instruction ends the run with return value `v` and does nothing else; `pc` is not incremented
(48_answer_operation.md R172). -/
def EndsRun (s t : State) (v : Nat) : Prop :=
  t.answered = some v ∧ t.uPc = s.uPc ∧ t.flag = s.flag ∧ SameRegs [] s t ∧ SameMem s t ∧ SameTapes s t ∧
    SameMachine s t ∧ t.steps = s.steps

/-! ## The encoding of an instruction: its opcode and which operand stands in which field (30_encoding.md R89, R91) -/

/-- Opcode `op` in format RRA: `ri` in field #3, `rj` in field #4. -/
def RowRRA (op : Nat) (mk : Nat → Nat → Operand → Instr) : Prop :=
  ∀ f : Fields, f.opcode = op → f.instr = mk f.f3 f.f4 f.operandA

/-- Opcode `op` in format RA: `ri` in field #3, field #4 ignored. -/
def RowRA (op : Nat) (mk : Nat → Operand → Instr) : Prop :=
  ∀ f : Fields, f.opcode = op → f.instr = mk f.f3 f.operandA

/-- Opcode `op` in format CA: `ri` in field #4, field #3 ignored. -/
def RowCA (op : Nat) (mk : Nat → Operand → Instr) : Prop :=
  ∀ f : Fields, f.opcode = op → f.instr = mk f.f4 f.operandA

/-- Opcode `op` in format A: fields #3 and #4 ignored. -/
def RowA (op : Nat) (mk : Operand → Instr) : Prop := ∀ f : Fields, f.opcode = op → f.instr = mk f.operandA

/-- Opcode `op` in format AR: the register stored in field #3, field #4 ignored. -/
def RowAR (op : Nat) (mk : Operand → Nat → Instr) : Prop :=
  ∀ f : Fields, f.opcode = op → f.instr = mk f.operandA f.f3

/-! ## The table of which instruction touches which state (10_state.md R44) -/

/-- The column "writes reg". -/
def destination : Instr → Option Nat
  | .and i _ _ | .or i _ _ | .xor i _ _ | .not i _ => some i
  | .add i _ _ | .sub i _ _ | .mull i _ _ | .umulh i _ _ | .smulh i _ _ | .udiv i _ _ | .umod i _ _ => some i
  | .shl i _ _ | .shr i _ _ => some i
  | .mov i _ | .cmov i _ | .loadB i _ | .loadW i _ | .read i _ => some i
  | .cmpe _ _ | .cmpa _ _ | .cmpae _ _ | .cmpg _ _ | .cmpge _ _ => none
  | .jmp _ | .cjmp _ | .cnjmp _ | .storeB _ _ | .storeW _ _ | .answer _ => none
  | .unassigned23 | .unassigned24 | .unassigned25 => none

/-- The column "writes flag". -/
def writesFlag : Instr → Bool
  | .and _ _ _ | .or _ _ _ | .xor _ _ _ | .not _ _ => true
  | .add _ _ _ | .sub _ _ _ | .mull _ _ _ | .umulh _ _ _ | .smulh _ _ _ | .udiv _ _ _ | .umod _ _ _ => true
  | .shl _ _ _ | .shr _ _ _ => true
  | .cmpe _ _ | .cmpa _ _ | .cmpae _ _ | .cmpg _ _ | .cmpge _ _ => true
  | .read _ _ => true
  | .mov _ _ | .cmov _ _ | .loadB _ _ | .loadW _ _ => false
  | .jmp _ | .cjmp _ | .cnjmp _ | .storeB _ _ | .storeW _ _ | .answer _ => false
  | .unassigned23 | .unassigned24 | .unassigned25 => false

/-- The column "reads flag". -/
def readsFlag : Instr → Bool
  | .cmov _ _ | .cjmp _ | .cnjmp _ => true
  | .and _ _ _ | .or _ _ _ | .xor _ _ _ | .not _ _ => false
  | .add _ _ _ | .sub _ _ _ | .mull _ _ _ | .umulh _ _ _ | .smulh _ _ _ | .udiv _ _ _ | .umod _ _ _ => false
  | .shl _ _ _ | .shr _ _ _ => false
  | .cmpe _ _ | .cmpa _ _ | .cmpae _ _ | .cmpg _ _ | .cmpge _ _ => false
  | .mov _ _ | .loadB _ _ | .loadW _ _ | .read _ _ => false
  | .jmp _ | .storeB _ _ | .storeW _ _ | .answer _ => false
  | .unassigned23 | .unassigned24 | .unassigned25 => false

/-- The column "memory": the first address and the number of the bytes that the instruction writes. -/
def storedBytes (s : State) : Instr → Option (Nat × Nat)
  | .storeB a _ => some (byteAddr s a, 1)
  | .storeW a _ => some (wordAddr s a, s.cfg.WB)
  | .and _ _ _ | .or _ _ _ | .xor _ _ _ | .not _ _ => none
  | .add _ _ _ | .sub _ _ _ | .mull _ _ _ | .umulh _ _ _ | .smulh _ _ _ | .udiv _ _ _ | .umod _ _ _ => none
  | .shl _ _ _ | .shr _ _ _ => none
  | .cmpe _ _ | .cmpa _ _ | .cmpae _ _ | .cmpg _ _ | .cmpge _ _ => none
  | .mov _ _ | .cmov _ _ | .loadB _ _ | .loadW _ _ | .read _ _ => none
  | .jmp _ | .cjmp _ | .cnjmp _ | .answer _ => none
  | .unassigned23 | .unassigned24 | .unassigned25 => none

/-- The column "tape": the tape of which the instruction may consume a word. -/
def tapeRead (s : State) : Instr → Option Nat
  | .read _ a => some (s.uA a)
  | .and _ _ _ | .or _ _ _ | .xor _ _ _ | .not _ _ => none
  | .add _ _ _ | .sub _ _ _ | .mull _ _ _ | .umulh _ _ _ | .smulh _ _ _ | .udiv _ _ _ | .umod _ _ _ => none
  | .shl _ _ _ | .shr _ _ _ => none
  | .cmpe _ _ | .cmpa _ _ | .cmpae _ _ | .cmpg _ _ | .cmpge _ _ => none
  | .mov _ _ | .cmov _ _ | .loadB _ _ | .loadW _ _ | .storeB _ _ | .storeW _ _ => none
  | .jmp _ | .cjmp _ | .cnjmp _ | .answer _ => none
  | .unassigned23 | .unassigned24 | .unassigned25 => none

/-- The return value of the instruction where it is an `answer`; an unassigned opcode executes as `answer 1`
(48_answer_operation.md R172, 30_encoding.md R93). -/
def answerValue (s : State) : Instr → Option Nat
  | .answer a => some (s.uA a)
  | .unassigned23 | .unassigned24 | .unassigned25 => some (s.uA (.imm 1))
  | .and _ _ _ | .or _ _ _ | .xor _ _ _ | .not _ _ => none
  | .add _ _ _ | .sub _ _ _ | .mull _ _ _ | .umulh _ _ _ | .smulh _ _ _ | .udiv _ _ _ | .umod _ _ _ => none
  | .shl _ _ _ | .shr _ _ _ => none
  | .cmpe _ _ | .cmpa _ _ | .cmpae _ _ | .cmpg _ _ | .cmpge _ _ => none
  | .mov _ _ | .cmov _ _ | .loadB _ _ | .loadW _ _ | .storeB _ _ | .storeW _ _ | .read _ _ => none
  | .jmp _ | .cjmp _ | .cnjmp _ => none

/-- The column "pc": the value of `pc` after the instruction. -/
def pcAfter (s : State) : Instr → Nat
  | .jmp a => s.uA a
  | .cjmp a => if s.flag then s.uA a else (s.uPc + s.cfg.pcInc) % 2 ^ s.cfg.W
  | .cnjmp a => if s.flag then (s.uPc + s.cfg.pcInc) % 2 ^ s.cfg.W else s.uA a
  | .answer _ | .unassigned23 | .unassigned24 | .unassigned25 => s.uPc
  | .and _ _ _ | .or _ _ _ | .xor _ _ _ | .not _ _ => (s.uPc + s.cfg.pcInc) % 2 ^ s.cfg.W
  | .add _ _ _ | .sub _ _ _ | .mull _ _ _ | .umulh _ _ _ => (s.uPc + s.cfg.pcInc) % 2 ^ s.cfg.W
  | .smulh _ _ _ | .udiv _ _ _ | .umod _ _ _ | .shl _ _ _ | .shr _ _ _ => (s.uPc + s.cfg.pcInc) % 2 ^ s.cfg.W
  | .cmpe _ _ | .cmpa _ _ | .cmpae _ _ | .cmpg _ _ | .cmpge _ _ => (s.uPc + s.cfg.pcInc) % 2 ^ s.cfg.W
  | .mov _ _ | .cmov _ _ | .loadB _ _ | .loadW _ _ => (s.uPc + s.cfg.pcInc) % 2 ^ s.cfg.W
  | .storeB _ _ | .storeW _ _ | .read _ _ => (s.uPc + s.cfg.pcInc) % 2 ^ s.cfg.W

/-! ## Operands -/

/-- The operands of an instruction are operands of the machine (30_encoding.md R95). -/
abbrev OperandsOk (c : Config) (rs : List Nat) (a : Operand) : Prop := (∀ n ∈ rs, n < c.K) ∧ a.wf c = true

/-! ## Well-formed states -/

/-- What every state of a run has: legal parameters, an hv program that is one, memory in its canonical form within its
`2^W` addresses (00_scope.md R8, R10; 10_state.md R24, R31). -/
abbrev State.wf (s : State) : Prop :=
  s.cfg.legal ∧ Program.wf s.cfg s.prog ∧ Memory.wf s.mem ∧ ∀ p ∈ s.mem, p.1 < 2 ^ s.cfg.W

/-- The return value of the `answer` that the machine fetches, if it fetches one (48_answer_operation.md R172). -/
def State.fetchedAnswer (s : State) : Option Nat :=
  match fetch s with
  | .ok i => answerValue s i
  | .error _ => none

/-- The return value with which the next step executes an `answer`, if it does (48_answer_operation.md R173, R175). -/
def State.answersNow (s : State) : Option Nat := if hasHalted s then none else s.fetchedAnswer

/-- A run that has ended stands at the `answer` that ended it: what it fetches is an `answer` of the same value
(48_answer_operation.md R173). -/
def State.restsAtAnswer (s : State) : Prop := ∀ v, s.answered = some v → s.fetchedAnswer = some v

/-! ## Runs and accepting computations -/

/-- The state after `n` steps, if there are so many (10_state.md R38). -/
def stateAfter : Nat → State → Option State
  | 0, s => some s
  | n + 1, s =>
    match step s with
    | .next t => stateAfter n t
    | _ => none

/-- The run from `s` executes, in its step `T`, an `answer` with return value `v`; steps are numbered from 1
(48_answer_operation.md R175; decision D4, notes/assumptions/7.md). -/
def AnswersAt (s : State) (T v : Nat) : Prop := 1 ≤ T ∧ ∃ t, stateAfter (T - 1) s = some t ∧ t.answersNow = some v

/-- `T0`: the number of the step that first executes an `answer`, here with return value `v0`
(48_answer_operation.md R175). -/
def FirstAnswer (s : State) (T0 v0 : Nat) : Prop := AnswersAt s T0 v0 ∧ ∀ T v, T < T0 → ¬ AnswersAt s T v

/-- "executes the instruction answer 0 in step T" (48_answer_operation.md R175). -/
def AcceptsIn (s : State) (T : Nat) : Prop := AnswersAt s T 0

/-- `P(x, w)` accepts in `T` steps (48_answer_operation.md R175). -/
def Accepts (c : Config) (p : List Instr) (initMem : List Byte) (x w : List (Word c.W)) (T : Nat) : Prop :=
  ∃ s, load c p initMem x w = .ok s ∧ AcceptsIn s T

/-- `(P, x, T)` is in the language of accepting computations: some auxiliary input makes `P` accept
(48_answer_operation.md R176). -/
def InLanguage (c : Config) (p : List Instr) (initMem : List Byte) (x : List (Word c.W)) (T : Nat) : Prop :=
  ∃ w, Accepts c p initMem x w T

end Sys2Proof.Machine
end

