-- ==== Sys2Proof/Certificates/Slice0/Obligations.lean ====
section
/-!
DEFINITION. The statements about the machine. Each docstring names the rules it formalises. `u(·)` is `uReg`, `uA`,
`uPc`, `uTape`; `s(·)` is `sReg`, `sA` (00_scope.md R14). They hold for every word size, number of registers and variant.
-/

open Sys2Proof Sys2Proof.Machine

/-! ## Bit operations -/

/-- 40_bit_operations.md R121: `and`, opcode 0, format RRA. -/
def Obligations.AndStoresBitwiseAnd : Prop :=
  RowRRA 0 Instr.and ∧ ∀ (s : State) (i j : Nat) (a : Operand), OperandsOk s.cfg [i, j] a →
    ∃ t, exec (.and i j a) s = .next t ∧
      WritesResult s t i (s.uReg j &&& s.uA a) (decide (s.uReg j &&& s.uA a = 0))

/-- 40_bit_operations.md R122: `or`, opcode 1, format RRA. -/
def Obligations.OrStoresBitwiseOr : Prop :=
  RowRRA 1 Instr.or ∧ ∀ (s : State) (i j : Nat) (a : Operand), OperandsOk s.cfg [i, j] a →
    ∃ t, exec (.or i j a) s = .next t ∧
      WritesResult s t i (s.uReg j ||| s.uA a) (decide (s.uReg j ||| s.uA a = 0))

/-- 40_bit_operations.md R123: `xor`, opcode 2, format RRA. -/
def Obligations.XorStoresBitwiseXor : Prop :=
  RowRRA 2 Instr.xor ∧ ∀ (s : State) (i j : Nat) (a : Operand), OperandsOk s.cfg [i, j] a →
    ∃ t, exec (.xor i j a) s = .next t ∧
      WritesResult s t i (s.uReg j ^^^ s.uA a) (decide (s.uReg j ^^^ s.uA a = 0))

/-- 40_bit_operations.md R124: `not`, opcode 3, format RA. Every bit of the result is one minus the operand's. -/
def Obligations.NotStoresComplement : Prop :=
  RowRA 3 Instr.not ∧ ∀ (s : State) (i : Nat) (a : Operand), OperandsOk s.cfg [i] a →
    ∃ t r, exec (.not i a) s = .next t ∧ r < 2 ^ s.cfg.W ∧
      (∀ k, k < s.cfg.W → r.testBit k = !(s.uA a).testBit k) ∧ WritesResult s t i r (decide (r = 0))

/-! ## Integer operations -/

/-- 41_integer_operations.md R131: `add`, opcode 4, format RRA; the flag is the unsigned carry. -/
def Obligations.AddStoresSumAndCarry : Prop :=
  RowRRA 4 Instr.add ∧ ∀ (s : State) (i j : Nat) (a : Operand), OperandsOk s.cfg [i, j] a →
    ∃ t, exec (.add i j a) s = .next t ∧
      WritesResult s t i ((s.uReg j + s.uA a) % 2 ^ s.cfg.W) (decide (2 ^ s.cfg.W ≤ s.uReg j + s.uA a))

/-- 41_integer_operations.md R132: `sub`, opcode 5, format RRA; the flag is the unsigned borrow. -/
def Obligations.SubStoresDifferenceAndBorrow : Prop :=
  RowRRA 5 Instr.sub ∧ ∀ (s : State) (i j : Nat) (a : Operand), OperandsOk s.cfg [i, j] a →
    ∃ t, exec (.sub i j a) s = .next t ∧
      WritesResult s t i ((s.uReg j + 2 ^ s.cfg.W - s.uA a) % 2 ^ s.cfg.W) (decide (s.uReg j < s.uA a))

/-- 41_integer_operations.md R133: `mull`, opcode 6, format RRA. -/
def Obligations.MullStoresLowProduct : Prop :=
  RowRRA 6 Instr.mull ∧ ∀ (s : State) (i j : Nat) (a : Operand), OperandsOk s.cfg [i, j] a →
    ∃ t, exec (.mull i j a) s = .next t ∧
      WritesResult s t i (s.uReg j * s.uA a % 2 ^ s.cfg.W) (decide (2 ^ s.cfg.W ≤ s.uReg j * s.uA a))

/-- 41_integer_operations.md section on `umulh`, opcode 7, format RRA. That the product is written in `2W` bits is
decision D14 of 92_eei_decisions.md (notes/assumptions/11.md). -/
def Obligations.UmulhStoresHighProduct : Prop :=
  RowRRA 7 Instr.umulh ∧ ∀ (s : State) (i j : Nat) (a : Operand), OperandsOk s.cfg [i, j] a →
    ∃ t, exec (.umulh i j a) s = .next t ∧
      WritesResult s t i (s.uReg j * s.uA a / 2 ^ s.cfg.W) (decide (2 ^ s.cfg.W ≤ s.uReg j * s.uA a))

/-- 41_integer_operations.md section on `smulh`, opcode 8, format RRA, in a machine of the literal reading: the sign bit,
then bits `2W−2 : W` of the absolute value of the signed product. The reading is a parameter (decisions D5, D14, D18 of
92_eei_decisions.md; notes/assumptions/8.md and 11.md). -/
def Obligations.SmulhLiteralStoresSignAndMagnitude : Prop :=
  RowRRA 8 Instr.smulh ∧ ∀ (s : State) (i j : Nat) (a : Operand), s.cfg.smulh = .literal → OperandsOk s.cfg [i, j] a →
    ∃ t, exec (.smulh i j a) s = .next t ∧
      WritesResult s t i
        ((if s.sReg j * s.sA a < 0 then 2 ^ (s.cfg.W - 1) else 0) + (s.sReg j * s.sA a).natAbs / 2 ^ s.cfg.W)
        (decide (s.sReg j * s.sA a < -2 ^ (s.cfg.W - 1) ∨ 2 ^ (s.cfg.W - 1) - 1 < s.sReg j * s.sA a))

/-- 41_integer_operations.md section on `smulh`, opcode 8, format RRA, in a machine of the two's complement reading: the
result, read as a signed integer, is the product divided by `2^W` and rounded down. The reading is a parameter
(decision D5 of 92_eei_decisions.md; notes/assumptions/8.md). -/
def Obligations.SmulhTwosComplementStoresHighProduct : Prop :=
  RowRRA 8 Instr.smulh ∧ ∀ (s : State) (i j : Nat) (a : Operand), s.cfg.smulh = .twosComplement →
    OperandsOk s.cfg [i, j] a →
    ∃ t r, exec (.smulh i j a) s = .next t ∧ t.sReg i = s.sReg j * s.sA a / 2 ^ s.cfg.W ∧
      WritesResult s t i r
        (decide (s.sReg j * s.sA a < -2 ^ (s.cfg.W - 1) ∨ 2 ^ (s.cfg.W - 1) - 1 < s.sReg j * s.sA a))

/-- 41_integer_operations.md R136: `udiv`, opcode 9, format RRA; a zero divisor gives 0 and sets the flag. -/
def Obligations.UdivStoresQuotient : Prop :=
  RowRRA 9 Instr.udiv ∧ ∀ (s : State) (i j : Nat) (a : Operand), OperandsOk s.cfg [i, j] a →
    ∃ t q, exec (.udiv i j a) s = .next t ∧ (s.uA a = 0 → q = 0) ∧
      (s.uA a ≠ 0 → ∃ r, r < s.uA a ∧ s.uReg j = s.uA a * q + r) ∧ WritesResult s t i q (decide (s.uA a = 0))

/-- 41_integer_operations.md R137: `umod`, opcode 10, format RRA; a zero divisor gives 0 and sets the flag. -/
def Obligations.UmodStoresRemainder : Prop :=
  RowRRA 10 Instr.umod ∧ ∀ (s : State) (i j : Nat) (a : Operand), OperandsOk s.cfg [i, j] a →
    ∃ t r, exec (.umod i j a) s = .next t ∧ (s.uA a = 0 → r = 0) ∧
      (s.uA a ≠ 0 → r < s.uA a ∧ ∃ q, s.uReg j = s.uA a * q + r) ∧ WritesResult s t i r (decide (s.uA a = 0))

/-- 41_integer_operations.md section on integer arithmetic laws: `umulh ‖ mull` is the whole unsigned product, and the
flags of the two are equal and say that `umulh` is not zero. The width of the product is decision D14
(notes/assumptions/11.md). -/
def Obligations.MullAndUmulhMakeTheProduct : Prop :=
  ∀ (s : State) (i j : Nat) (a : Operand), OperandsOk s.cfg [i, j] a →
    ∃ t u, exec (.mull i j a) s = .next t ∧ exec (.umulh i j a) s = .next u ∧
      2 ^ s.cfg.W * u.uReg i + t.uReg i = s.uReg j * s.uA a ∧ t.flag = u.flag ∧ (t.flag = true ↔ u.uReg i ≠ 0)

/-! ## Shifts and compares -/

/-- 42_shift_operations.md section on `shl`, opcode 11, format RRA; the flag is the MSB of the source. The result 0 for an
amount of `W` or more is decision D7 of 92_eei_decisions.md (notes/assumptions/10.md). -/
def Obligations.ShlShiftsLeft : Prop :=
  RowRRA 11 Instr.shl ∧ ∀ (s : State) (i j : Nat) (a : Operand), OperandsOk s.cfg [i, j] a →
    ∃ t, exec (.shl i j a) s = .next t ∧
      WritesResult s t i (if s.uA a < s.cfg.W then s.uReg j * 2 ^ s.uA a % 2 ^ s.cfg.W else 0)
        (decide (2 ^ (s.cfg.W - 1) ≤ s.uReg j))

/-- 42_shift_operations.md section on `shr`, opcode 12, format RRA; the flag is the LSB of the source. The result 0 for an
amount of `W` or more is decision D7 of 92_eei_decisions.md (notes/assumptions/10.md). -/
def Obligations.ShrShiftsRight : Prop :=
  RowRRA 12 Instr.shr ∧ ∀ (s : State) (i j : Nat) (a : Operand), OperandsOk s.cfg [i, j] a →
    ∃ t, exec (.shr i j a) s = .next t ∧
      WritesResult s t i (if s.uA a < s.cfg.W then s.uReg j / 2 ^ s.uA a else 0) (decide (s.uReg j % 2 = 1))

/-- 43_compare_operations.md R146: `cmpe`, opcode 13, format CA. -/
def Obligations.CmpeComparesEqual : Prop :=
  RowCA 13 Instr.cmpe ∧ ∀ (s : State) (i : Nat) (a : Operand), OperandsOk s.cfg [i] a →
    ∃ t, exec (.cmpe i a) s = .next t ∧ WritesFlag s t (decide (s.uReg i = s.uA a))

/-- 43_compare_operations.md R147 and R148: `cmpa`, opcode 14, and `cmpae`, opcode 15, format CA, unsigned. -/
def Obligations.UnsignedComparesSetFlag : Prop :=
  RowCA 14 Instr.cmpa ∧ RowCA 15 Instr.cmpae ∧ ∀ (s : State) (i : Nat) (a : Operand), OperandsOk s.cfg [i] a →
    (∃ t, exec (.cmpa i a) s = .next t ∧ WritesFlag s t (decide (s.uReg i > s.uA a))) ∧
    (∃ t, exec (.cmpae i a) s = .next t ∧ WritesFlag s t (decide (s.uReg i ≥ s.uA a)))

/-- 43_compare_operations.md R149 and R150: `cmpg`, opcode 16, and `cmpge`, opcode 17, format CA, signed. -/
def Obligations.SignedComparesSetFlag : Prop :=
  RowCA 16 Instr.cmpg ∧ RowCA 17 Instr.cmpge ∧ ∀ (s : State) (i : Nat) (a : Operand), OperandsOk s.cfg [i] a →
    (∃ t, exec (.cmpg i a) s = .next t ∧ WritesFlag s t (decide (s.sReg i > s.sA a))) ∧
    (∃ t, exec (.cmpge i a) s = .next t ∧ WritesFlag s t (decide (s.sReg i ≥ s.sA a)))

/-! ## Moves and jumps -/

/-- 44_move_operations.md R153: `mov`, opcode 18, format RA; the flag is unchanged. -/
def Obligations.MovStoresOperand : Prop :=
  RowRA 18 Instr.mov ∧ ∀ (s : State) (i : Nat) (a : Operand), OperandsOk s.cfg [i] a →
    ∃ t, exec (.mov i a) s = .next t ∧ WritesResult s t i (s.uA a) s.flag

/-- 44_move_operations.md R154: `cmov`, opcode 19, format RA; without the flag the register keeps its value. -/
def Obligations.CmovStoresIfFlag : Prop :=
  RowRA 19 Instr.cmov ∧ ∀ (s : State) (i : Nat) (a : Operand), OperandsOk s.cfg [i] a →
    ∃ t, exec (.cmov i a) s = .next t ∧ WritesResult s t i (if s.flag then s.uA a else s.uReg i) s.flag

/-- 45_jump_operations.md R157: `jmp`, opcode 20, format A; the target is any value. -/
def Obligations.JmpStoresInPc : Prop :=
  RowA 20 Instr.jmp ∧ ∀ (s : State) (a : Operand), OperandsOk s.cfg [] a →
    ∃ t, exec (.jmp a) s = .next t ∧ WritesPc s t (s.uA a)

/-- 45_jump_operations.md R158: `cjmp`, opcode 21, format A. -/
def Obligations.CjmpJumpsIfFlag : Prop :=
  RowA 21 Instr.cjmp ∧ ∀ (s : State) (a : Operand), OperandsOk s.cfg [] a →
    ∃ t, exec (.cjmp a) s = .next t ∧
      WritesPc s t (if s.flag then s.uA a else (s.uPc + s.cfg.pcInc) % 2 ^ s.cfg.W)

/-- 45_jump_operations.md R159: `cnjmp`, opcode 22, format A. -/
def Obligations.CnjmpJumpsUnlessFlag : Prop :=
  RowA 22 Instr.cnjmp ∧ ∀ (s : State) (a : Operand), OperandsOk s.cfg [] a →
    ∃ t, exec (.cnjmp a) s = .next t ∧
      WritesPc s t (if s.flag then (s.uPc + s.cfg.pcInc) % 2 ^ s.cfg.W else s.uA a)

/-! ## Memory operations -/

/-- 46_memory_operations.md R162: `store.b`, opcode 26, format AR. The low byte of the register goes to `byteAddr s a`,
which is `u(valA)`; every other byte, every register and the flag stay. -/
def Obligations.StoreByteWritesOneByte : Prop :=
  RowAR 26 Instr.storeB ∧ ∀ (s : State) (a : Operand) (i : Nat), OperandsOk s.cfg [i] a →
    ∃ t, exec (.storeB a i) s = .next t ∧ byteAddr s a = s.uA a ∧
      t.byteAt (byteAddr s a) = BitVec.ofNat 8 (s.uReg i) ∧ SameMemOutside (byteAddr s a) 1 s t ∧
      t.flag = s.flag ∧ Advanced s t ∧ SameRegs [] s t ∧ SameRest s t

/-- 46_memory_operations.md R163: `load.b`, opcode 27, format RA, zero-extended. -/
def Obligations.LoadByteZeroExtends : Prop :=
  RowRA 27 Instr.loadB ∧ ∀ (s : State) (i : Nat) (a : Operand), OperandsOk s.cfg [i] a →
    ∃ t, exec (.loadB i a) s = .next t ∧ WritesResult s t i (s.byteAt (s.uA a)).toNat s.flag

/-- 46_memory_operations.md R164: `store.w`, opcode 28, format AR. The register goes to the word at `wordAddr s a`, which
is `u(valA)` rounded down to a multiple of `WB`, least significant byte first; the word does not reach past the top of
memory; every other byte, every register and the flag stay. -/
def Obligations.StoreWordWritesAlignedWord : Prop :=
  RowAR 28 Instr.storeW ∧ ∀ (s : State) (a : Operand) (i : Nat), OperandsOk s.cfg [i] a →
    ∃ t, exec (.storeW a i) s = .next t ∧ wordAddr s a = s.uA a / s.cfg.WB * s.cfg.WB ∧
      wordAddr s a + s.cfg.WB ≤ 2 ^ s.cfg.W ∧
      (∀ k, k < s.cfg.WB → t.byteAt (wordAddr s a + k) = BitVec.ofNat 8 (s.uReg i / 2 ^ (8 * k))) ∧
      SameMemOutside (wordAddr s a) s.cfg.WB s t ∧ t.flag = s.flag ∧ Advanced s t ∧ SameRegs [] s t ∧ SameRest s t

/-- 46_memory_operations.md R165: `load.w`, opcode 29, format RA. Byte `k` of the register is the byte at
`wordAddr s a + k`. -/
def Obligations.LoadWordReadsAlignedWord : Prop :=
  RowRA 29 Instr.loadW ∧ ∀ (s : State) (i : Nat) (a : Operand), OperandsOk s.cfg [i] a →
    ∃ t r, exec (.loadW i a) s = .next t ∧ wordAddr s a = s.uA a / s.cfg.WB * s.cfg.WB ∧ r < 2 ^ s.cfg.W ∧
      (∀ k, k < s.cfg.WB → BitVec.ofNat 8 (r / 2 ^ (8 * k)) = s.byteAt (wordAddr s a + k)) ∧
      WritesResult s t i r s.flag

/-- 20_memory.md R53: `MemWrite` writes bits `8k+7 : 8k` to address `(a + k) mod 2^W` and no other byte. -/
def Obligations.MemWriteWritesItsBytesOnly : Prop :=
  ∀ (m : Memory) (w a n : Nat) (v : BitVec (8 * n)), n ≤ 2 ^ w →
    (∀ k, k < n → Memory.read (memWrite m w a n v) ((a + k) % 2 ^ w) = v.extractLsb' (8 * k) 8) ∧
    ∀ b, (∀ k, k < n → b ≠ (a + k) % 2 ^ w) → Memory.read (memWrite m w a n v) b = Memory.read m b

/-- 20_memory.md section on byte order: a byte loaded from within a word just stored is that byte of the register. -/
def Obligations.LoadByteReadsStoredWord : Prop :=
  ∀ (s : State) (a : Operand) (i j k : Nat), OperandsOk s.cfg [i] a → j < s.cfg.K → k < s.cfg.WB →
    ∃ t u, exec (.storeW a i) s = .next t ∧ exec (.loadB j (.imm (wordAddr s a + k))) t = .next u ∧
      u.uReg j = s.uReg i / 2 ^ (8 * k) % 2 ^ 8

/-! ## Input, answer, unassigned opcodes, refusals -/

/-- 47_input_operation.md R170, with the tapes of R169: `read`, opcode 30, format RA. The next word of tape `u(valA)` is
consumed, or 0 stored and the flag set where none remains; all but the first two tapes are empty. -/
def Obligations.ReadConsumesNextWord : Prop :=
  RowRA 30 Instr.read ∧ ∀ (s : State) (i : Nat) (a : Operand), OperandsOk s.cfg [i] a →
    ∃ t, exec (.read i a) s = .next t ∧ t.uReg i = (s.uTape (s.uA a)).headD 0 ∧
      t.flag = (s.uTape (s.uA a)).isEmpty ∧ t.uTape (s.uA a) = (s.uTape (s.uA a)).tail ∧
      (∀ n, n ≠ s.uA a → t.uTape n = s.uTape n) ∧ (2 ≤ s.uA a → s.uTape (s.uA a) = []) ∧
      Advanced s t ∧ SameRegs [i] s t ∧ SameMem s t ∧ SameMachine s t ∧ SameBook s t

/-- 48_answer_operation.md section on `answer`, opcode 31, format A; nothing but the bookkeeping changes, which is decision
D17 (notes/assumptions/6.md). -/
def Obligations.AnswerReturnsOperand : Prop :=
  RowA 31 Instr.answer ∧ ∀ (s : State) (a : Operand), OperandsOk s.cfg [] a →
    ∃ t, exec (.answer a) s = .next t ∧ EndsRun s t (s.uA a)

/-- 30_encoding.md section 4: opcodes 23, 24 and 25 execute as `answer 1`, whatever the other bits are. That each decodes to
a constructor of its own, and not to `answer 1` itself, is the model's choice (notes/assumptions/16.md). -/
def Obligations.UnassignedOpcodesAnswerOne : Prop :=
  (∀ f : Fields, (f.opcode = 23 → f.instr = .unassigned23) ∧ (f.opcode = 24 → f.instr = .unassigned24) ∧
    (f.opcode = 25 → f.instr = .unassigned25)) ∧
  ∀ (s : State) (i : Instr), i ∈ [Instr.unassigned23, Instr.unassigned24, Instr.unassigned25] →
    exec i s = exec (.answer (.imm 1)) s ∧ ∃ t, exec i s = .next t ∧ EndsRun s t 1

/-- The model's choice for 92_eei_decisions.md D2 (notes/assumptions/5.md): an instruction that names a register numbered
`K` or more is refused, by such a number. -/
def Obligations.OutOfRangeRegisterIsRefused : Prop :=
  ∀ (s : State) (i : Instr) (n : Nat), s.cfg.K ≤ n → (n ∈ i.registers ∨ i.operandA = .reg n) →
    ∃ m, s.cfg.K ≤ m ∧ exec i s = .refused (.notAnInstruction (.registerOutOfRange m))

/-- 60_exceptions.md section on synchronous exceptions: no instruction of the machine raises one; each completes. That no
trap exists is decision D12 (notes/assumptions/15.md). -/
def Obligations.EveryInstructionCompletes : Prop :=
  ∀ (s : State) (i : Instr), i.wf s.cfg = true → ∃ t, exec i s = .next t

/-! ## Every instruction's effects -/

/-- 10_state.md R23: every instruction other than a jump that is taken and `answer` ends with `pc <- next_pc`, where
`pcAfter` says which; `pc` goes up by 1 in hv and by `2W/8` in vn, modulo `2^W`. -/
def Obligations.PcAdvancesUnlessJumpOrAnswer : Prop :=
  ∀ (s : State) (i : Instr), i.wf s.cfg = true →
    (s.cfg.arch = .hv → s.cfg.pcInc = 1) ∧ (s.cfg.arch = .vn → s.cfg.pcInc = 2 * s.cfg.W / 8) ∧
    ∃ t, exec i s = .next t ∧ t.uPc = pcAfter s i

/-- 10_state.md section on which instruction touches which state: what the table leaves blank for an instruction, the
instruction leaves as it was. -/
def Obligations.EffectsAreThoseOfTheTable : Prop :=
  ∀ (s t : State) (i : Instr), exec i s = .next t →
    (∀ n, destination i ≠ some n → t.uReg n = s.uReg n) ∧
    (writesFlag i = false → t.flag = s.flag) ∧
    (∀ b, (∀ a n, storedBytes s i = some (a, n) → b < a ∨ a + n ≤ b) → t.byteAt b = s.byteAt b) ∧
    (∀ n, tapeRead s i ≠ some n → t.uTape n = s.uTape n) ∧
    (answerValue s i = none → t.answered = s.answered) ∧ SameMachine s t ∧ t.steps = s.steps

/-- 10_state.md section on the condition flag: only `cmov`, `cjmp` and `cnjmp` read it. Any other instruction, run with
the flag set to `b`, does the same but that a flag it does not write stays `b`. -/
def Obligations.FlagIsReadByThreeInstructions : Prop :=
  ∀ (s t : State) (i : Instr) (b : Bool), readsFlag i = false → exec i s = .next t →
    exec i (s.setFlag b) = .next (t.setFlag (if writesFlag i then t.flag else b))

/-- 10_state.md section on the program counter: no instruction lets a program observe `pc` other than by where it
executes. Run with another `pc`, an instruction leaves the same registers, flag, memory, tapes and return value. -/
def Obligations.PcIsNotObservable : Prop :=
  ∀ (s t : State) (i : Instr) (v : Word s.cfg.W), exec i s = .next t →
    ∃ u, exec i (s.setPc v) = .next u ∧ (∀ n, u.uReg n = t.uReg n) ∧ u.flag = t.flag ∧
      (∀ b, u.byteAt b = t.byteAt b) ∧ (∀ n, u.uTape n = t.uTape n) ∧ u.answered = t.answered

/-! ## Encoding -/

/-- 30_encoding.md sections 2 to 4: decoding an encoded instruction of the machine gives it back, as a word and as bytes
in memory order, for every legal word size and number of registers. An unassigned opcode is the instruction `answer 1`,
so that is what comes back; that it has a constructor of its own is the model's choice (notes/assumptions/16.md). -/
def Obligations.DecodeAfterEncode : Prop :=
  ∀ (c : Config) (i : Instr), c.encodable → i.wf c = true →
    (i.isUnassigned = false → decode c (encode c i) = .ok i ∧ decodeBytes c (encodeBytes c i) = .ok i) ∧
    (i.isUnassigned = true → decode c (encode c i) = .ok (.answer (.imm 1)) ∧
      decodeBytes c (encodeBytes c i) = .ok (.answer (.imm 1)))

/-- 30_encoding.md section 1: where the encoding exists, the fields of a word whose padding is zero make the word again:
the fields and the padding are all its bits. -/
def Obligations.PackAfterFields : Prop :=
  ∀ (c : Config) (e : BitVec c.EW), c.encodable → (∀ k, c.W ≤ k → k < c.W + c.PAD → e.getLsbD k = false) →
    pack c (fieldsOf c e) = e

/-- 30_encoding.md section 4 and decision D9 (notes/assumptions/13.md): two words decode alike that differ only in the padding
(every opcode), in field #4 too (formats RA and AR), in field #3 (format CA), in both (format A), or anywhere after an
unassigned opcode. -/
def Obligations.DecodeIgnoresDontCareBits : Prop :=
  ∀ (c : Config) (e e' : BitVec c.EW), c.encodable → (fieldsOf c e).opcode = (fieldsOf c e').opcode →
    ((∀ k, ¬ (c.W ≤ k ∧ k < c.W + c.PAD) → e.getLsbD k = e'.getLsbD k) → decode c e = decode c e') ∧
    ((fieldsOf c e).opcode ∈ [3, 18, 19, 26, 27, 28, 29, 30] →
      (∀ k, ¬ (c.W ≤ k ∧ k < c.W + c.PAD + c.KB) → e.getLsbD k = e'.getLsbD k) → decode c e = decode c e') ∧
    ((fieldsOf c e).opcode ∈ [13, 14, 15, 16, 17] →
      (∀ k, ¬ (c.W + c.PAD + c.KB ≤ k ∧ k < c.W + c.PAD + 2 * c.KB) → e.getLsbD k = e'.getLsbD k) →
      decode c e = decode c e') ∧
    ((fieldsOf c e).opcode ∈ [20, 21, 22, 31] →
      (∀ k, ¬ (c.W ≤ k ∧ k < c.W + c.PAD + 2 * c.KB) → e.getLsbD k = e'.getLsbD k) → decode c e = decode c e') ∧
    ((fieldsOf c e).opcode ∈ [23, 24, 25] → decode c e = decode c e')

/-- 30_encoding.md section on the decoder: it gives an instruction to every word when `K` is a power of two and the `imm`
bit is 1, and whatever it refuses names a register numbered `K` or more. That it refuses these is decision D2
(notes/assumptions/5.md). -/
def Obligations.DecoderIsTotalButForRegisters : Prop :=
  ∀ (c : Config) (e : BitVec c.EW), c.encodable →
    ((∃ m, c.K = 2 ^ m) → e.getLsbD (2 * c.W - 6) = true → ∃ i, decode c e = .ok i) ∧
    ((∃ i, decode c e = .ok i) ∨ ∃ n, c.K ≤ n ∧ decode c e = .error (.registerOutOfRange n))

/-- 20_memory.md section on byte order (decision D1, notes/assumptions/4.md): the word at the lower address of an encoded
instruction is field #6, and the byte at the highest address holds the opcode in its five most significant bits. -/
def Obligations.EncodedInstructionLiesLittleEndian : Prop :=
  ∀ (c : Config) (i : Instr), c.encodable → i.wf c = true →
    (encodeBytes c i).length = c.DWB ∧
    (∀ k, k < c.WB → (encodeBytes c i).getD k 0 = BitVec.ofNat 8 (i.fields.f6 / 2 ^ (8 * k))) ∧
    ((encodeBytes c i).getD (c.DWB - 1) 0).toNat / 2 ^ 3 = i.fields.opcode

/-- 30_encoding.md section 4 and 95_test_vectors.md section 2: words of the spec and what they encode; one names register 16
and is refused (decision D2, notes/assumptions/5.md); `0xB8001234`, which the spec reads as `answer 1`, decodes to the
model's own constructor for opcode 23 (notes/assumptions/16.md). The all-zero word is `and r0, r0, r0` in every machine. -/
def Obligations.SpecWordsDecode : Prop :=
  decodeTableWord 32 0x24DC04D2 = some (.add 3 7 (.imm 1234)) ∧
  decodeTableWord 32 0x20DC0005 = some (.add 3 7 (.reg 5)) ∧
  decodeTableWord 32 0x9440FFFF = some (.mov 1 (.imm 0xFFFF)) ∧
  decodeTableWord 32 0x6C100007 = some (.cmpe 4 (.imm 7)) ∧
  decodeTableWord 32 0xAC00001C = some (.cjmp (.imm 28)) ∧
  decodeTableWord 32 0xF8000002 = some (.answer (.reg 2)) ∧
  decodeTableWord 32 0xE0400000 = some (.storeW (.reg 0) 1) ∧
  decodeTableWord 32 0xF4C00001 = some (.read 3 (.imm 1)) ∧
  decodeTableWord 32 0xB8001234 = some .unassigned23 ∧
  decodeTableWord 32 0x20DC0010 = none ∧
  ∀ c : Config, c.encodable → 1 ≤ c.K → decode c 0 = .ok (.and 0 0 (.reg 0))

/-! ## Fetch and step -/

/-- 10_state.md R28 and R38: when the bytes of the double word at `pc` rounded down decode to an instruction, a step
executes that instruction and counts one step; that is all a step adds. -/
def Obligations.StepRunsDecodedInstruction : Prop :=
  ∀ (s : State) (i : Instr), hasHalted s = false → s.cfg.legal → s.cfg.arch = .vn →
    decodeBytes s.cfg ((List.range s.cfg.DWB).map fun k => s.byteAt (s.uPc / s.cfg.DWB * s.cfg.DWB + k)) = .ok i →
    ∃ t, exec i s = .next t ∧ step s = .next t.countStep ∧ t.countStep.steps = t.steps + 1

/-- 10_state.md R25: an hv machine executes the `pc`-th instruction of its program, and `answer 1` where there is none. -/
def Obligations.HvRunsProgramThenAnswersOne : Prop :=
  ∀ s : State, hasHalted s = false → s.cfg.legal → s.cfg.arch = .hv → Program.wf s.cfg s.prog →
    (∀ i, s.prog[s.uPc]? = some i → ∃ t, exec i s = .next t ∧ step s = .next t.countStep) ∧
    (s.prog.length ≤ s.uPc → ∃ t, exec (.answer (.imm 1)) s = .next t ∧ step s = .next t.countStep ∧
      t.answered = some 1)

/-- 10_state.md sections on fetch and on a misaligned `pc`, 20_memory.md section on instruction-fetch coherence: whatever
wrote them, the bytes of an encoded instruction in the double word that holds address `u(pc)` are fetched as it, those
encoded for an unassigned opcode as `answer 1` (`canonical`; notes/assumptions/16.md). -/
def Obligations.FetchSeesMemoryAsItIs : Prop :=
  ∀ (s : State) (i : Instr), s.cfg.legal → s.cfg.arch = .vn → i.wf s.cfg = true →
    (∀ k, k < s.cfg.DWB → s.byteAt (s.uPc / s.cfg.DWB * s.cfg.DWB + k) = (encodeBytes s.cfg i).getD k 0) →
    fetch s = .ok i.canonical

/-- A step of a well-formed state answers a next state, but where a vn machine fetches a word that names a register
numbered `K` or more (60_exceptions.md section 1; the refusal is decision D2, notes/assumptions/5.md). -/
def Obligations.WellFormedMachineGoesOn : Prop :=
  ∀ s : State, s.wf → hasHalted s = false →
    (∃ t, step s = .next t) ∨
    (s.cfg.arch = .vn ∧ ∃ n, s.cfg.K ≤ n ∧ step s = .refused (.notAnInstruction (.registerOutOfRange n)))

/-- Every step keeps the state well-formed: legal parameters, an hv program that is one, memory in its canonical form
within its `2^W` addresses (10_state.md sections on memory and on the program). -/
def Obligations.StepKeepsStateWellFormed : Prop :=
  ∀ s t : State, s.wf → step s = .next t → t.wf

/-- Both invariants hold at reset: the state is well-formed, and, as no run has ended, it rests at no `answer`. -/
def Obligations.ResetMeetsTheInvariants : Prop :=
  State.reset.wf ∧ State.reset.answered = none ∧ State.reset.restsAtAnswer

/-- 10_state.md sections 4 and 8, 20_memory.md section 6: no step changes the parameters or the
program, and each adds one to the count of steps. -/
def Obligations.StepKeepsProgramAndParameters : Prop :=
  ∀ s t : State, step s = .next t → t.cfg = s.cfg ∧ t.prog = s.prog ∧ t.steps = s.steps + 1

/-! ## Initial states and the loader -/

/-- 10_state.md R40: the initial state of an hv machine. -/
def Obligations.HvInitialStateIsZero : Prop :=
  ∀ (c : Config) (p : List Instr) (m : List Byte) (x w : List (Word c.W)) (s : State), c.arch = .hv →
    load c p m x w = .ok s →
    s.cfg = c ∧ s.prog = p ∧ s.uPc = 0 ∧ (∀ n, s.uReg n = 0) ∧ s.flag = false ∧ (∀ a, s.byteAt a = 0) ∧
    s.uTape 0 = x.map BitVec.toNat ∧ s.uTape 1 = w.map BitVec.toNat

/-- 10_state.md sections on the vn program and on reset: the initial state of a vn machine, whose memory is the program's
image with the bytes `m` after it, and the default 0 after these (decision D6, notes/assumptions/9.md). -/
def Obligations.VnInitialStateHoldsTheImage : Prop :=
  ∀ (c : Config) (p : List Instr) (m : List Byte) (x w : List (Word c.W)) (s : State), c.arch = .vn →
    load c p m x w = .ok s →
    s.cfg = c ∧ s.uPc = 0 ∧ (∀ n, s.uReg n = 0) ∧ s.flag = false ∧
    (∀ a, s.byteAt a = (imageBytes c p ++ m).getD a 0) ∧
    s.uTape 0 = x.map BitVec.toNat ∧ s.uTape 1 = w.map BitVec.toNat

/-- 70_reset_and_hazards.md section 2: a loaded machine is well-formed, runs, has taken no step (the numbering of steps is
decision D4, notes/assumptions/7.md), and at the number of each instruction of its program it fetches that instruction,
in both variants; in vn, where the program is encoded, `answer 1` for an unassigned opcode (`canonical`;
notes/assumptions/16.md). -/
def Obligations.LoadedProgramIsFetched : Prop :=
  ∀ (c : Config) (p : List Instr) (m : List Byte) (x w : List (Word c.W)) (s : State), load c p m x w = .ok s →
    s.wf ∧ s.answered = none ∧ s.steps = 0 ∧ ∀ n i, p[n]? = some i →
      fetch (s.setPc (BitVec.ofNat s.cfg.W (instrNumber c n))) = .ok (match c.arch with | .hv => i | .vn => i.canonical)

/-- 30_encoding.md section 5: what the assembler makes of a text is a program of the machine that the text's header
names, and it has no more instructions than that machine can hold. The first line is `; TinyRAM V=2.000`, then the fields
`M=`, `W=` and `K=`, which give the variant, `W` and `K`; the header does not name the answer mode and the reading of
`smulh`, which are those given. The lexical points are decision D15 (notes/assumptions/20.md). -/
def Obligations.AssembledTextIsAProgram : Prop :=
  ∀ (am : AnswerMode) (sr : SmulhReading) (text : List Char) (c : Config) (p : List Instr),
    assemble am sr text = .ok (c, p) →
    (∃ (m w k : List Char),
      (splitAtChars isLineEnd text).head?.map (splitAtChars (· = ' '))
        = some [";".toList, "TinyRAM".toList, "V=2.000".toList, m, 'W' :: '=' :: w, 'K' :: '=' :: k] ∧
      (m = "M=hv".toList ∧ c.arch = .hv ∨ m = "M=vn".toList ∧ c.arch = .vn) ∧
      decimal w = some c.W ∧ decimal k = some c.K) ∧
    c.legal ∧ c.answerMode = am ∧ c.smulh = sr ∧ (∀ i ∈ p, i.wf c = true) ∧ instrNumber c p.length ≤ 2 ^ c.W

/-! ## The end of a run -/

/-- 48_answer_operation.md section on the family: only an `answer` (or an unassigned opcode, which executes as one) ends a
run, and it returns its operand. -/
def Obligations.OnlyAnswerEndsARun : Prop :=
  ∀ s t : State, step s = .next t → t.answered = s.answersNow.or s.answered

/-- 48_answer_operation.md section on stall or halt: a run that has ended stands at the `answer` that ended it, and every
step keeps this so. -/
def Obligations.StepKeepsRestingAtAnswer : Prop :=
  ∀ s t : State, s.restsAtAnswer → step s = .next t → t.restsAtAnswer

/-- 48_answer_operation.md section on stall or halt: after the run has ended, a machine that halts has no further step,
and a step of a machine that stalls changes nothing but the count of steps. The state is one that rests at its answer;
every reachable state is. How the model shows the halt is notes/assumptions/6.md, and the count notes/assumptions/21.md. -/
def Obligations.AnsweredMachineStandsStill : Prop :=
  ∀ (s : State) (v : Nat), s.answered = some v → s.restsAtAnswer →
    (s.cfg.answerMode = .halt → step s = .fault .halted) ∧ (s.cfg.answerMode = .stall → step s = .next s.countStep)

/-- 48_answer_operation.md section on accepting in `T` steps: from a running state whose first `answer` is executed in
step `T0` with value `v0`, a machine that halts accepts in `T` steps iff `v0 = 0` and `T = T0`, one that stalls iff
`v0 = 0` and `T ≥ T0`. Steps are numbered from 1 (decision D4, notes/assumptions/7.md). -/
def Obligations.AcceptanceDependsOnFirstAnswer : Prop :=
  ∀ (s : State) (T0 v0 : Nat), s.answered = none → FirstAnswer s T0 v0 →
    (s.cfg.answerMode = .halt → ∀ T, AcceptsIn s T ↔ v0 = 0 ∧ T = T0) ∧
    (s.cfg.answerMode = .stall → ∀ T, AcceptsIn s T ↔ v0 = 0 ∧ T0 ≤ T)

/-! ## The canonical encoding -/

/-- 30_encoding.md section 4: encoding a decoded word gives the word back exactly when its don't-care bits (the padding, and
the register fields that its format does not use) are zero and its opcode is assigned. -/
def Obligations.EncodeAfterDecode : Prop :=
  ∀ (c : Config) (e : BitVec c.EW) (i : Instr), decode c e = .ok i →
    (encode c i = e ↔
      (∀ k, c.W ≤ k → k < c.W + c.PAD → e.getLsbD k = false) ∧
      ((fieldsOf c e).opcode ∈ [3, 18, 19, 26, 27, 28, 29, 30] → (fieldsOf c e).f4 = 0) ∧
      ((fieldsOf c e).opcode ∈ [13, 14, 15, 16, 17] → (fieldsOf c e).f3 = 0) ∧
      ((fieldsOf c e).opcode ∈ [20, 21, 22, 31] → (fieldsOf c e).f3 = 0 ∧ (fieldsOf c e).f4 = 0) ∧
      (fieldsOf c e).opcode ∉ [23, 24, 25])
end

