-- ==== Sys2Proof/Laws/Decode.lean ====
section
/-!
SUPPORT. The decoder and the encoder: the fields of a packed word, and what decoding succeeds on (30_encoding.md R81, R92,
R95, R96).
-/

namespace Sys2Proof

/-! ## Widths -/

/-- The bits of a double word are `2W`. -/
theorem EW_eq (c : Config) : c.EW = 2 * c.W := by simp only [Config.EW, Config.DWB, Config.W]; ring

theorem W_pos (c : Config) : 8 ≤ c.W := by
  have := Nat.two_pow_pos c.logWB
  simp only [Config.W, Config.WB]
  omega

/-- A register number fits in a register field: `K ≤ 2^KB`. -/
theorem K_le_pow_KB (c : Config) : c.K ≤ 2 ^ c.KB := by
  unfold Config.KB ceilLog2
  split
  · simpa using ‹c.K ≤ 1›
  · have := Nat.lt_log2_self (n := c.K - 1)
    omega

/-- The six fields fill a double word (30_encoding.md R81). -/
theorem field_widths (c : Config) (h : c.encodable) : 5 + 1 + c.KB + c.KB + c.PAD + c.W = c.EW := by
  have := EW_eq c
  simp only [Config.encodable] at h
  unfold Config.PAD
  omega

/-! ## Well-formed instructions -/

@[simp] theorem checkOperandA_eq_none (c : Config) (a : Operand) : checkOperandA c a = none ↔ a.wf c = true := by
  cases a <;> simp [checkOperandA, Operand.wf]

/-- The check finds nothing exactly when every register and operand `A` are those of the machine. -/
@[simp] theorem checkOperands_eq_none (c : Config) (rs : List Nat) (a : Operand) :
    checkOperands c rs a = none ↔ (∀ n ∈ rs, n < c.K) ∧ a.wf c = true := by
  unfold checkOperands
  split
  · next n h =>
    have h1 := List.find?_some h
    have h2 := List.mem_of_find?_eq_some h
    simp only [decide_eq_true_eq] at h1
    simp only [reduceCtorEq, false_iff, not_and]
    intro h3
    have := h3 n h2
    omega
  · next h => simp_all

theorem wf_iff (c : Config) (i : Instr) :
    i.wf c = true ↔ (∀ n ∈ i.registers, n < c.K) ∧ i.operandA.wf c = true := by
  simp [Instr.wf]

/-- The check of an instruction gives it back exactly when it is one of the machine. -/
@[simp] theorem checkInstr_eq_ok (c : Config) (i j : Instr) : checkInstr c i = .ok j ↔ j = i ∧ i.wf c = true := by
  have h := checkOperands_eq_none c i.registers i.operandA
  rw [← wf_iff] at h
  unfold checkInstr
  split
  · next e he =>
    simp only [he, reduceCtorEq, false_iff] at h
    simp [h]
  · next he => simp [h.1 he, eq_comm]

/-- What the decoder accepts (30_encoding.md R92, R95). -/
theorem decode_eq_ok (c : Config) (e : BitVec c.EW) (i : Instr) :
    decode c e = .ok i ↔ c.encodable ∧ i = (fieldsOf c e).instr ∧ i.wf c = true := by
  unfold decode
  split
  · next h =>
    rw [checkInstr_eq_ok]
    constructor
    · rintro ⟨rfl, hw⟩
      exact ⟨h, rfl, hw⟩
    · rintro ⟨-, rfl, hw⟩
      exact ⟨rfl, hw⟩
  · next h => simp [h]

/-! ## Fields of a packed word -/

/-- Bit `k` of a packed word, field by field from the least significant end (30_encoding.md R81). -/
theorem pack_getLsbD (c : Config) (h : c.encodable) (f : Fields) (k : Nat) :
    (pack c f).getLsbD k = if k < c.W then f.f6.testBit k
      else if k < c.W + c.PAD then false
      else if k < c.W + c.PAD + c.KB then f.f4.testBit (k - (c.W + c.PAD))
      else if k < c.W + c.PAD + 2 * c.KB then f.f3.testBit (k - (c.W + c.PAD + c.KB))
      else if k < 2 * c.W - 5 then f.imm && decide (k = 2 * c.W - 6)
      else (decide (k < 2 * c.W) && f.opcode.testBit (k - (2 * c.W - 5))) := by
  have hw := field_widths c h
  have he := EW_eq c
  have h8 := W_pos c
  unfold pack
  simp only [BitVec.getLsbD_setWidth, BitVec.getLsbD_append, BitVec.getLsbD_ofNat, BitVec.getLsbD_ofBool]
  by_cases h1 : k < c.W
  · simp [h1, show k < c.EW by omega]
  by_cases h2 : k < c.W + c.PAD
  · simp [h1, h2, show k - c.W < c.PAD by omega]
  have g2 : ¬ k - c.W < c.PAD := by omega
  simp only [h1, h2, g2, if_false]
  by_cases h3 : k < c.W + c.PAD + c.KB
  · simp only [h3, show k - c.W - c.PAD < c.KB by omega, show k < c.EW by omega, if_true, decide_true, Bool.true_and]
    rw [Nat.sub_sub]
  have g3 : ¬ k - c.W - c.PAD < c.KB := by omega
  simp only [h3, g3, if_false]
  by_cases h4 : k < c.W + c.PAD + 2 * c.KB
  · simp only [h4, show k - c.W - c.PAD - c.KB < c.KB by omega, show k < c.EW by omega, if_true, decide_true,
      Bool.true_and]
    rw [show k - c.W - c.PAD - c.KB = k - (c.W + c.PAD + c.KB) by omega]
  have g4 : ¬ k - c.W - c.PAD - c.KB < c.KB := by omega
  simp only [h4, g4, if_false]
  by_cases h5 : k < 2 * c.W - 5
  · obtain rfl : k = 2 * c.W - 6 := by omega
    simp [show 2 * c.W - 6 - c.W - c.PAD - c.KB - c.KB = 0 by omega, show 2 * c.W - 6 < c.EW by omega,
      show 2 * c.W - 6 < 2 * c.W - 5 by omega]
  have g5 : ¬ k - c.W - c.PAD - c.KB - c.KB < 1 := by omega
  simp only [h5, g5, if_false]
  by_cases h6 : k < 2 * c.W
  · simp only [h6, show k < c.EW by omega, show k - c.W - c.PAD - c.KB - c.KB - 1 = k - (2 * c.W - 5) by omega,
      show k - (2 * c.W - 5) < 5 by omega, decide_true, Bool.true_and]
  · simp [h6, show ¬ k < c.EW by omega]

/-- The number in a slice, bit by bit. -/
theorem toNat_extract_eq {w : Nat} (e : BitVec w) (lo n x : Nat) (hx : x < 2 ^ n)
    (h : ∀ k, k < n → e.getLsbD (lo + k) = x.testBit k) : (e.extractLsb' lo n).toNat = x := by
  have hv : e.extractLsb' lo n = BitVec.ofNat n x := by
    apply BitVec.eq_of_getLsbD_eq
    intro k hk
    rw [BitVec.getLsbD_extractLsb', BitVec.getLsbD_ofNat, h k hk]
  rw [hv, BitVec.toNat_ofNat, Nat.mod_eq_of_lt hx]

/-- The fields that are packed are the fields that are read, where each fits its width (30_encoding.md R81). -/
theorem fieldsOf_pack (c : Config) (h : c.encodable) (f : Fields) (hop : f.opcode < 32) (h3 : f.f3 < 2 ^ c.KB)
    (h4 : f.f4 < 2 ^ c.KB) (h6 : f.f6 < 2 ^ c.W) : fieldsOf c (pack c f) = f := by
  have hw := field_widths c h
  have he := EW_eq c
  have h8 := W_pos c
  unfold fieldsOf
  congr 1
  · refine toNat_extract_eq _ _ _ _ hop fun k hk => ?_
    rw [pack_getLsbD c h]
    simp [show ¬ (2 * c.W - 5 + k < c.W) by omega, show ¬ (2 * c.W - 5 + k < c.W + c.PAD) by omega,
      show ¬ (2 * c.W - 5 + k < c.W + c.PAD + c.KB) by omega, show ¬ (2 * c.W - 5 + k < c.W + c.PAD + 2 * c.KB) by omega,
      show 2 * c.W - 5 + k < 2 * c.W by omega]
  · rw [pack_getLsbD c h]
    simp [show ¬ (2 * c.W - 6 < c.W) by omega, show ¬ (2 * c.W - 6 < c.W + c.PAD) by omega,
      show ¬ (2 * c.W - 6 < c.W + c.PAD + c.KB) by omega, show ¬ (2 * c.W - 6 < c.W + c.PAD + 2 * c.KB) by omega,
      show 2 * c.W - 6 < 2 * c.W - 5 by omega]
  · refine toNat_extract_eq _ _ _ _ h3 fun k hk => ?_
    rw [pack_getLsbD c h]
    simp [show ¬ (2 * c.W - 6 - c.KB + k < c.W) by omega, show ¬ (2 * c.W - 6 - c.KB + k < c.W + c.PAD) by omega,
      show ¬ (2 * c.W - 6 - c.KB + k < c.W + c.PAD + c.KB) by omega,
      show 2 * c.W - 6 - c.KB + k < c.W + c.PAD + 2 * c.KB by omega,
      show 2 * c.W - 6 - c.KB + k - (c.W + c.PAD + c.KB) = k by omega]
  · refine toNat_extract_eq _ _ _ _ h4 fun k hk => ?_
    rw [pack_getLsbD c h]
    simp [show ¬ (2 * c.W - 6 - 2 * c.KB + k < c.W) by omega, show ¬ (2 * c.W - 6 - 2 * c.KB + k < c.W + c.PAD) by omega,
      show 2 * c.W - 6 - 2 * c.KB + k < c.W + c.PAD + c.KB by omega,
      show 2 * c.W - 6 - 2 * c.KB + k - (c.W + c.PAD) = k by omega]
  · refine toNat_extract_eq _ _ _ _ h6 fun k hk => ?_
    rw [pack_getLsbD c h]
    simp [hk]

end Sys2Proof
end

