-- ==== Sys2Proof/Laws/Assembly.lean ====
section
/-!
SUPPORT. What the assembler makes, said once for each of its operations (30_encoding.md R100 to R108).
-/

namespace Sys2Proof.Machine

/-- What the `M` field says (30_encoding.md R100). -/
theorem headerArch_eq_some {field : List Char} {a : Arch} (h : headerArch field = some a) :
    field = "M=hv".toList ∧ a = .hv ∨ field = "M=vn".toList ∧ a = .vn := by
  unfold headerArch at h
  split at h
  case isTrue hf => exact .inl ⟨hf, (Option.some.inj h).symm⟩
  case isFalse =>
    split at h
    case isTrue hf => exact .inr ⟨hf, (Option.some.inj h).symm⟩
    case isFalse => cases h

/-- What the `W` and `K` fields say (30_encoding.md R100). -/
theorem headerNumber_eq_some {key : Char} {field : List Char} {n : Nat} (h : headerNumber key field = some n) :
    ∃ digits, field = key :: '=' :: digits ∧ decimal digits = some n := by
  unfold headerNumber at h
  split at h
  · split at h
    case isTrue hk => exact ⟨_, by rw [hk], h⟩
    case isFalse => cases h
  · cases h

/-- An accepted header has the six fields of 30_encoding.md R100, which name the variant, `W` and `K`; the parameters are
legal, and the two choices that the header does not name are those given. -/
theorem parseHeader_eq_some {am : AnswerMode} {sr : SmulhReading} {text : List Char} {c : Config}
    (h : parseHeader am sr text = some c) :
    (∃ m w k, splitAtChars (· = ' ') text
        = [";".toList, "TinyRAM".toList, "V=2.000".toList, m, 'W' :: '=' :: w, 'K' :: '=' :: k] ∧
      (m = "M=hv".toList ∧ c.arch = .hv ∨ m = "M=vn".toList ∧ c.arch = .vn) ∧
      decimal w = some c.W ∧ decimal k = some c.K) ∧
    c.legal ∧ c.answerMode = am ∧ c.smulh = sr := by
  unfold parseHeader at h
  split at h
  case h_2 => cases h
  case h_1 f0 f1 f2 f3 f4 f5 hs =>
    split at h
    case isFalse => cases h
    case isTrue hf =>
      obtain ⟨rfl, rfl, rfl⟩ := hf
      split at h
      case h_2 => cases h
      case h_1 arch w k ha hw hk =>
        simp only at h
        split at h
        case isFalse => cases h
        case isTrue hc =>
          obtain rfl := Option.some.inj h
          obtain ⟨dw, rfl, hdw⟩ := headerNumber_eq_some hw
          obtain ⟨dk, rfl, hdk⟩ := headerNumber_eq_some hk
          exact ⟨⟨f3, dw, dk, hs, headerArch_eq_some ha, hdw.trans (congrArg some hc.1.symm), hdk⟩, hc.2, rfl, rfl⟩

/-- An integer as an immediate is a `W`-bit value (30_encoding.md R103). -/
theorem immediateOf_lt (c : Config) (z : Int) : immediateOf c z < 2 ^ c.W := by
  have h : (0 : Int) < ((2 ^ c.W : Nat) : Int) := by exact_mod_cast Nat.two_pow_pos _
  have h1 := Int.emod_lt_of_pos z h
  have h2 := Int.emod_nonneg z h.ne'
  unfold immediateOf
  omega

/-- A resolved operand is one of the machine (30_encoding.md R103). -/
theorem resolveA_wf {c : Config} {places : List (List Char × Nat)} {n : Nat} {t : Token} {a : Operand}
    (h : resolveA c places n t = .ok a) : a.wf c = true := by
  cases t with
  | reg m =>
    simp only [resolveA] at h
    split at h
    · cases h
      simpa [Operand.wf]
    · cases h
  | int z =>
    cases h
    simpa [Operand.wf] using immediateOf_lt c z
  | label name =>
    simp only [resolveA] at h
    split at h
    · split at h
      · cases h
        simpa [Operand.wf] using immediateOf_lt c _
      · cases h
    · cases h

/-- An assembly form puts its registers and its operand `A` where the instruction has them (30_encoding.md R104). -/
def AsmForm.ok : AsmForm → Prop
  | .rra f => ∀ i j a, (f i j a).registers = [i, j] ∧ (f i j a).operandA = a
  | .ra f => ∀ i a, (f i a).registers = [i] ∧ (f i a).operandA = a
  | .a f => ∀ a, (f a).registers = [] ∧ (f a).operandA = a
  | .ar f => ∀ a i, (f a i).registers = [i] ∧ (f a i).operandA = a

/-- Every row of the table of mnemonics is of that kind. -/
theorem formOf_ok {name : List Char} {f : AsmForm} (h : formOf name = some f) : f.ok := by
  obtain ⟨p, hp, rfl⟩ := Option.map_eq_some_iff.1 h
  have hm := List.mem_of_find?_eq_some hp
  simp only [asmForms, List.mem_cons, List.not_mem_nil, or_false] at hm
  casesm* _ ∨ _
  all_goals
    subst p
    simp only [AsmForm.ok]
    intros
    exact ⟨rfl, rfl⟩

/-- A built instruction is one of the machine (30_encoding.md R104). -/
theorem buildInstr_wf {c : Config} {places : List (List Char × Nat)} {n : Nat} {si : SourceInstr} {i : Instr}
    (h : buildInstr c (resolveA c places n) si = .ok i) : i.wf c = true := by
  have key : ∀ (t : Token) (g : Operand → Instr), (resolveA c places n t).map g = .ok i →
      ∃ a, a.wf c = true ∧ i = g a := by
    intro t g hg
    cases hr : resolveA c places n t with
    | error e =>
      rw [hr] at hg
      cases hg
    | ok a =>
      rw [hr] at hg
      cases hg
      exact ⟨a, resolveA_wf hr, rfl⟩
  unfold buildInstr at h
  split at h
  · next f ri rj t hf _ =>
    have hok := formOf_ok hf
    split at h
    · split at h
      · obtain ⟨a, ha, rfl⟩ := key t _ h
        simp [wf_iff, hok ri rj a, *]
      · cases h
    · cases h
  · next f ri t hf _ =>
    have hok := formOf_ok hf
    split at h
    · obtain ⟨a, ha, rfl⟩ := key t _ h
      simp [wf_iff, hok ri a, *]
    · cases h
  · next f t hf _ =>
    have hok := formOf_ok hf
    obtain ⟨a, ha, rfl⟩ := key t _ h
    simp [wf_iff, hok a, *]
  · next f t ri hf _ =>
    have hok := formOf_ok hf
    split at h
    · obtain ⟨a, ha, rfl⟩ := key t _ h
      simp [wf_iff, hok a ri, *]
    · cases h
  · cases h

/-- The instructions of the lines are those of the machine, one for each line with an instruction (30_encoding.md R105). -/
theorem buildAll_eq_ok {c : Config} {places : List (List Char × Nat)} {n : Nat} {is : List SourceInstr} {p : List Instr}
    (h : buildAll c (resolveA c places n) is = .ok p) : (∀ i ∈ p, i.wf c = true) ∧ p.length = is.length := by
  induction is generalizing p with
  | nil =>
    cases h
    simp
  | cons i is ih =>
    unfold buildAll at h
    split at h
    · next x xs h1 h2 =>
      cases h
      obtain ⟨hw, hl⟩ := ih h2
      simpa [buildInstr_wf h1, hl] using hw
    · cases h
    · cases h

end Sys2Proof.Machine
end

