-- ==== Sys2Proof/Laws/Bytes.lean ====
section
/-!
SUPPORT. Blocks of bytes: what each byte of a block is, and that bytes and block are two forms of one value
(20_memory.md R52, R53).
-/

namespace Sys2Proof

@[simp] theorem bytesOfBlock_length (n : Nat) (v : BitVec (8 * n)) : (bytesOfBlock n v).length = n := by
  induction n with
  | zero => rfl
  | succ n ih => simp [bytesOfBlock, ih]

theorem extractLsb'_extractLsb' {w : Nat} (v : BitVec w) (a b n m : Nat) (h : b + m ≤ n) :
    (v.extractLsb' a n).extractLsb' b m = v.extractLsb' (a + b) m := by
  apply BitVec.eq_of_getLsbD_eq
  intro i hi
  have h2 : b + i < n := by omega
  simp [hi, h2, Nat.add_assoc]

/-- Byte `k` of a block is its bits `8k+7 : 8k`. -/
theorem bytesOfBlock_getD (n : Nat) (v : BitVec (8 * n)) (k : Nat) (hk : k < n) :
    (bytesOfBlock n v).getD k 0 = v.extractLsb' (8 * k) 8 := by
  induction n generalizing k with
  | zero => omega
  | succ n ih =>
    cases k with
    | zero => rfl
    | succ k =>
      have h := ih (v.extractLsb' 8 (8 * n)) k (by omega)
      rw [extractLsb'_extractLsb' v 8 (8 * k) (8 * n) 8 (by omega)] at h
      rw [show 8 * (k + 1) = 8 + 8 * k by omega, ← h]
      rfl

/-- Bits `8k+7 : 8k` of a block are its byte `k`. -/
theorem blockOfBytes_extract (n : Nat) (bs : List Byte) (k : Nat) (hk : k < n) :
    (blockOfBytes n bs).extractLsb' (8 * k) 8 = bs.getD k 0 := by
  induction n generalizing bs k with
  | zero => omega
  | succ n ih =>
    apply BitVec.eq_of_getLsbD_eq
    intro i hi
    cases k with
    | zero =>
      cases bs <;> simp [blockOfBytes, BitVec.getLsbD_append, hi]
    | succ k =>
      have h := congrArg (fun b => b.getLsbD i) (ih bs.tail k (by omega))
      have h2 : ¬ (8 * (k + 1) + i < 8) := by omega
      have h3 : 8 * (k + 1) + i - 8 = 8 * k + i := by omega
      simp only [BitVec.getLsbD_extractLsb', hi, decide_true, Bool.true_and] at h
      simp only [blockOfBytes, BitVec.getLsbD_extractLsb', hi, decide_true, Bool.true_and, BitVec.getLsbD_append,
        h2, if_false, h3, h]
      cases bs <;> simp

/-- A block is given by its bytes. -/
theorem block_eq_of_bytes {n : Nat} {v w : BitVec (8 * n)}
    (h : ∀ k, k < n → v.extractLsb' (8 * k) 8 = w.extractLsb' (8 * k) 8) : v = w := by
  apply BitVec.eq_of_getLsbD_eq
  intro i hi
  have hb := congrArg (fun b => b.getLsbD (i % 8)) (h (i / 8) (by omega))
  have h8 : i % 8 < 8 := by omega
  have hi2 : 8 * (i / 8) + i % 8 = i := by omega
  simpa [BitVec.getLsbD_extractLsb', h8, hi2] using hb

/-- The bytes of a block make the block. -/
@[simp] theorem blockOfBytes_bytesOfBlock (n : Nat) (v : BitVec (8 * n)) : blockOfBytes n (bytesOfBlock n v) = v :=
  block_eq_of_bytes fun k hk => by rw [blockOfBytes_extract n _ k hk, bytesOfBlock_getD n v k hk]

end Sys2Proof
end

