-- ==== Sys2Proof/Laws/State.lean ====
section
/-!
SUPPORT. One lemma for each field of `State` under each update, true by `rfl`, and the same for what is read off a state.
-/

namespace Sys2Proof.Machine

/-! ## `State.setReg` -/

@[simp] theorem State.setReg_cfg (s : State) (n : Nat) (v : Word s.cfg.W) :
    (s.setReg n v).cfg = s.cfg := rfl

@[simp] theorem State.setReg_prog (s : State) (n : Nat) (v : Word s.cfg.W) :
    (s.setReg n v).prog = s.prog := rfl

@[simp] theorem State.setReg_pc (s : State) (n : Nat) (v : Word s.cfg.W) :
    (s.setReg n v).pc = s.pc := rfl

@[simp] theorem State.setReg_regs (s : State) (n : Nat) (v : Word s.cfg.W) :
    (s.setReg n v).regs = s.regs.setIfInBounds n v := rfl

@[simp] theorem State.setReg_flag (s : State) (n : Nat) (v : Word s.cfg.W) :
    (s.setReg n v).flag = s.flag := rfl

@[simp] theorem State.setReg_mem (s : State) (n : Nat) (v : Word s.cfg.W) :
    (s.setReg n v).mem = s.mem := rfl

@[simp] theorem State.setReg_tape0 (s : State) (n : Nat) (v : Word s.cfg.W) :
    (s.setReg n v).tape0 = s.tape0 := rfl

@[simp] theorem State.setReg_tape1 (s : State) (n : Nat) (v : Word s.cfg.W) :
    (s.setReg n v).tape1 = s.tape1 := rfl

@[simp] theorem State.setReg_status (s : State) (n : Nat) (v : Word s.cfg.W) :
    (s.setReg n v).status = s.status := rfl

@[simp] theorem State.setReg_steps (s : State) (n : Nat) (v : Word s.cfg.W) :
    (s.setReg n v).steps = s.steps := rfl

@[simp] theorem State.setReg_uPc (s : State) (n : Nat) (v : Word s.cfg.W) :
    (s.setReg n v).uPc = s.uPc := rfl

@[simp] theorem State.setReg_answered (s : State) (n : Nat) (v : Word s.cfg.W) :
    (s.setReg n v).answered = s.answered := rfl

@[simp] theorem State.setReg_byteAt (s : State) (n : Nat) (v : Word s.cfg.W) (a : Nat) :
    (s.setReg n v).byteAt a = s.byteAt a := rfl

@[simp] theorem State.setReg_uTape (s : State) (n : Nat) (v : Word s.cfg.W) (k : Nat) :
    (s.setReg n v).uTape k = s.uTape k := by
  cases k with
  | zero => rfl
  | succ k => cases k <;> rfl

/-! ## `State.setFlag` -/

@[simp] theorem State.setFlag_cfg (s : State) (b : Bool) :
    (s.setFlag b).cfg = s.cfg := rfl

@[simp] theorem State.setFlag_prog (s : State) (b : Bool) :
    (s.setFlag b).prog = s.prog := rfl

@[simp] theorem State.setFlag_pc (s : State) (b : Bool) :
    (s.setFlag b).pc = s.pc := rfl

@[simp] theorem State.setFlag_regs (s : State) (b : Bool) :
    (s.setFlag b).regs = s.regs := rfl

@[simp] theorem State.setFlag_flag (s : State) (b : Bool) :
    (s.setFlag b).flag = b := rfl

@[simp] theorem State.setFlag_mem (s : State) (b : Bool) :
    (s.setFlag b).mem = s.mem := rfl

@[simp] theorem State.setFlag_tape0 (s : State) (b : Bool) :
    (s.setFlag b).tape0 = s.tape0 := rfl

@[simp] theorem State.setFlag_tape1 (s : State) (b : Bool) :
    (s.setFlag b).tape1 = s.tape1 := rfl

@[simp] theorem State.setFlag_status (s : State) (b : Bool) :
    (s.setFlag b).status = s.status := rfl

@[simp] theorem State.setFlag_steps (s : State) (b : Bool) :
    (s.setFlag b).steps = s.steps := rfl

@[simp] theorem State.setFlag_uPc (s : State) (b : Bool) :
    (s.setFlag b).uPc = s.uPc := rfl

@[simp] theorem State.setFlag_answered (s : State) (b : Bool) :
    (s.setFlag b).answered = s.answered := rfl

@[simp] theorem State.setFlag_byteAt (s : State) (b : Bool) (a : Nat) :
    (s.setFlag b).byteAt a = s.byteAt a := rfl

@[simp] theorem State.setFlag_uTape (s : State) (b : Bool) (k : Nat) :
    (s.setFlag b).uTape k = s.uTape k := by
  cases k with
  | zero => rfl
  | succ k => cases k <;> rfl

@[simp] theorem State.setFlag_uReg (s : State) (b : Bool) (k : Nat) :
    (s.setFlag b).uReg k = s.uReg k := rfl

@[simp] theorem State.setFlag_sReg (s : State) (b : Bool) (k : Nat) :
    (s.setFlag b).sReg k = s.sReg k := rfl

/-! ## `State.setPc` -/

@[simp] theorem State.setPc_cfg (s : State) (v : Word s.cfg.W) :
    (s.setPc v).cfg = s.cfg := rfl

@[simp] theorem State.setPc_prog (s : State) (v : Word s.cfg.W) :
    (s.setPc v).prog = s.prog := rfl

@[simp] theorem State.setPc_pc (s : State) (v : Word s.cfg.W) :
    (s.setPc v).pc = v := rfl

@[simp] theorem State.setPc_regs (s : State) (v : Word s.cfg.W) :
    (s.setPc v).regs = s.regs := rfl

@[simp] theorem State.setPc_flag (s : State) (v : Word s.cfg.W) :
    (s.setPc v).flag = s.flag := rfl

@[simp] theorem State.setPc_mem (s : State) (v : Word s.cfg.W) :
    (s.setPc v).mem = s.mem := rfl

@[simp] theorem State.setPc_tape0 (s : State) (v : Word s.cfg.W) :
    (s.setPc v).tape0 = s.tape0 := rfl

@[simp] theorem State.setPc_tape1 (s : State) (v : Word s.cfg.W) :
    (s.setPc v).tape1 = s.tape1 := rfl

@[simp] theorem State.setPc_status (s : State) (v : Word s.cfg.W) :
    (s.setPc v).status = s.status := rfl

@[simp] theorem State.setPc_steps (s : State) (v : Word s.cfg.W) :
    (s.setPc v).steps = s.steps := rfl

@[simp] theorem State.setPc_answered (s : State) (v : Word s.cfg.W) :
    (s.setPc v).answered = s.answered := rfl

@[simp] theorem State.setPc_byteAt (s : State) (v : Word s.cfg.W) (a : Nat) :
    (s.setPc v).byteAt a = s.byteAt a := rfl

@[simp] theorem State.setPc_uTape (s : State) (v : Word s.cfg.W) (k : Nat) :
    (s.setPc v).uTape k = s.uTape k := by
  cases k with
  | zero => rfl
  | succ k => cases k <;> rfl

@[simp] theorem State.setPc_uReg (s : State) (v : Word s.cfg.W) (k : Nat) :
    (s.setPc v).uReg k = s.uReg k := rfl

@[simp] theorem State.setPc_sReg (s : State) (v : Word s.cfg.W) (k : Nat) :
    (s.setPc v).sReg k = s.sReg k := rfl

/-! ## `State.setMem` -/

@[simp] theorem State.setMem_cfg (s : State) (m : Memory) :
    (s.setMem m).cfg = s.cfg := rfl

@[simp] theorem State.setMem_prog (s : State) (m : Memory) :
    (s.setMem m).prog = s.prog := rfl

@[simp] theorem State.setMem_pc (s : State) (m : Memory) :
    (s.setMem m).pc = s.pc := rfl

@[simp] theorem State.setMem_regs (s : State) (m : Memory) :
    (s.setMem m).regs = s.regs := rfl

@[simp] theorem State.setMem_flag (s : State) (m : Memory) :
    (s.setMem m).flag = s.flag := rfl

@[simp] theorem State.setMem_mem (s : State) (m : Memory) :
    (s.setMem m).mem = m := rfl

@[simp] theorem State.setMem_tape0 (s : State) (m : Memory) :
    (s.setMem m).tape0 = s.tape0 := rfl

@[simp] theorem State.setMem_tape1 (s : State) (m : Memory) :
    (s.setMem m).tape1 = s.tape1 := rfl

@[simp] theorem State.setMem_status (s : State) (m : Memory) :
    (s.setMem m).status = s.status := rfl

@[simp] theorem State.setMem_steps (s : State) (m : Memory) :
    (s.setMem m).steps = s.steps := rfl

@[simp] theorem State.setMem_uPc (s : State) (m : Memory) :
    (s.setMem m).uPc = s.uPc := rfl

@[simp] theorem State.setMem_answered (s : State) (m : Memory) :
    (s.setMem m).answered = s.answered := rfl

@[simp] theorem State.setMem_uTape (s : State) (m : Memory) (k : Nat) :
    (s.setMem m).uTape k = s.uTape k := by
  cases k with
  | zero => rfl
  | succ k => cases k <;> rfl

@[simp] theorem State.setMem_uReg (s : State) (m : Memory) (k : Nat) :
    (s.setMem m).uReg k = s.uReg k := rfl

@[simp] theorem State.setMem_sReg (s : State) (m : Memory) (k : Nat) :
    (s.setMem m).sReg k = s.sReg k := rfl

/-! ## `State.consume` -/

@[simp] theorem State.consume_cfg (s : State) (t : Nat) :
    (s.consume t).cfg = s.cfg := rfl

@[simp] theorem State.consume_prog (s : State) (t : Nat) :
    (s.consume t).prog = s.prog := rfl

@[simp] theorem State.consume_pc (s : State) (t : Nat) :
    (s.consume t).pc = s.pc := rfl

@[simp] theorem State.consume_regs (s : State) (t : Nat) :
    (s.consume t).regs = s.regs := rfl

@[simp] theorem State.consume_flag (s : State) (t : Nat) :
    (s.consume t).flag = s.flag := rfl

@[simp] theorem State.consume_mem (s : State) (t : Nat) :
    (s.consume t).mem = s.mem := rfl

@[simp] theorem State.consume_tape0 (s : State) (t : Nat) :
    (s.consume t).tape0 = if t = 0 then s.tape0.tail else s.tape0 := rfl

@[simp] theorem State.consume_tape1 (s : State) (t : Nat) :
    (s.consume t).tape1 = if t = 1 then s.tape1.tail else s.tape1 := rfl

@[simp] theorem State.consume_status (s : State) (t : Nat) :
    (s.consume t).status = s.status := rfl

@[simp] theorem State.consume_steps (s : State) (t : Nat) :
    (s.consume t).steps = s.steps := rfl

@[simp] theorem State.consume_uPc (s : State) (t : Nat) :
    (s.consume t).uPc = s.uPc := rfl

@[simp] theorem State.consume_answered (s : State) (t : Nat) :
    (s.consume t).answered = s.answered := rfl

@[simp] theorem State.consume_byteAt (s : State) (t : Nat) (a : Nat) :
    (s.consume t).byteAt a = s.byteAt a := rfl

@[simp] theorem State.consume_uReg (s : State) (t : Nat) (k : Nat) :
    (s.consume t).uReg k = s.uReg k := rfl

@[simp] theorem State.consume_sReg (s : State) (t : Nat) (k : Nat) :
    (s.consume t).sReg k = s.sReg k := rfl

/-! ## `State.setAnswered` -/

@[simp] theorem State.setAnswered_cfg (s : State) (v : Word s.cfg.W) :
    (s.setAnswered v).cfg = s.cfg := rfl

@[simp] theorem State.setAnswered_prog (s : State) (v : Word s.cfg.W) :
    (s.setAnswered v).prog = s.prog := rfl

@[simp] theorem State.setAnswered_pc (s : State) (v : Word s.cfg.W) :
    (s.setAnswered v).pc = s.pc := rfl

@[simp] theorem State.setAnswered_regs (s : State) (v : Word s.cfg.W) :
    (s.setAnswered v).regs = s.regs := rfl

@[simp] theorem State.setAnswered_flag (s : State) (v : Word s.cfg.W) :
    (s.setAnswered v).flag = s.flag := rfl

@[simp] theorem State.setAnswered_mem (s : State) (v : Word s.cfg.W) :
    (s.setAnswered v).mem = s.mem := rfl

@[simp] theorem State.setAnswered_tape0 (s : State) (v : Word s.cfg.W) :
    (s.setAnswered v).tape0 = s.tape0 := rfl

@[simp] theorem State.setAnswered_tape1 (s : State) (v : Word s.cfg.W) :
    (s.setAnswered v).tape1 = s.tape1 := rfl

@[simp] theorem State.setAnswered_status (s : State) (v : Word s.cfg.W) :
    (s.setAnswered v).status = .answered v := rfl

@[simp] theorem State.setAnswered_steps (s : State) (v : Word s.cfg.W) :
    (s.setAnswered v).steps = s.steps := rfl

@[simp] theorem State.setAnswered_uPc (s : State) (v : Word s.cfg.W) :
    (s.setAnswered v).uPc = s.uPc := rfl

@[simp] theorem State.setAnswered_byteAt (s : State) (v : Word s.cfg.W) (a : Nat) :
    (s.setAnswered v).byteAt a = s.byteAt a := rfl

@[simp] theorem State.setAnswered_uTape (s : State) (v : Word s.cfg.W) (k : Nat) :
    (s.setAnswered v).uTape k = s.uTape k := by
  cases k with
  | zero => rfl
  | succ k => cases k <;> rfl

@[simp] theorem State.setAnswered_uReg (s : State) (v : Word s.cfg.W) (k : Nat) :
    (s.setAnswered v).uReg k = s.uReg k := rfl

@[simp] theorem State.setAnswered_sReg (s : State) (v : Word s.cfg.W) (k : Nat) :
    (s.setAnswered v).sReg k = s.sReg k := rfl

/-! ## `State.countStep` -/

@[simp] theorem State.countStep_cfg (s : State) :
    (s.countStep).cfg = s.cfg := rfl

@[simp] theorem State.countStep_prog (s : State) :
    (s.countStep).prog = s.prog := rfl

@[simp] theorem State.countStep_pc (s : State) :
    (s.countStep).pc = s.pc := rfl

@[simp] theorem State.countStep_regs (s : State) :
    (s.countStep).regs = s.regs := rfl

@[simp] theorem State.countStep_flag (s : State) :
    (s.countStep).flag = s.flag := rfl

@[simp] theorem State.countStep_mem (s : State) :
    (s.countStep).mem = s.mem := rfl

@[simp] theorem State.countStep_tape0 (s : State) :
    (s.countStep).tape0 = s.tape0 := rfl

@[simp] theorem State.countStep_tape1 (s : State) :
    (s.countStep).tape1 = s.tape1 := rfl

@[simp] theorem State.countStep_status (s : State) :
    (s.countStep).status = s.status := rfl

@[simp] theorem State.countStep_steps (s : State) :
    (s.countStep).steps = s.steps + 1 := rfl

@[simp] theorem State.countStep_uPc (s : State) :
    (s.countStep).uPc = s.uPc := rfl

@[simp] theorem State.countStep_answered (s : State) :
    (s.countStep).answered = s.answered := rfl

@[simp] theorem State.countStep_byteAt (s : State) (a : Nat) :
    (s.countStep).byteAt a = s.byteAt a := rfl

@[simp] theorem State.countStep_uTape (s : State) (k : Nat) :
    (s.countStep).uTape k = s.uTape k := by
  cases k with
  | zero => rfl
  | succ k => cases k <;> rfl

@[simp] theorem State.countStep_uReg (s : State) (k : Nat) :
    (s.countStep).uReg k = s.uReg k := rfl

@[simp] theorem State.countStep_sReg (s : State) (k : Nat) :
    (s.countStep).sReg k = s.sReg k := rfl

/-! ## `State.advance` -/

@[simp] theorem State.advance_cfg (s : State) :
    (s.advance).cfg = s.cfg := rfl

@[simp] theorem State.advance_prog (s : State) :
    (s.advance).prog = s.prog := rfl

@[simp] theorem State.advance_pc (s : State) :
    (s.advance).pc = s.nextPc := rfl

@[simp] theorem State.advance_regs (s : State) :
    (s.advance).regs = s.regs := rfl

@[simp] theorem State.advance_flag (s : State) :
    (s.advance).flag = s.flag := rfl

@[simp] theorem State.advance_mem (s : State) :
    (s.advance).mem = s.mem := rfl

@[simp] theorem State.advance_tape0 (s : State) :
    (s.advance).tape0 = s.tape0 := rfl

@[simp] theorem State.advance_tape1 (s : State) :
    (s.advance).tape1 = s.tape1 := rfl

@[simp] theorem State.advance_status (s : State) :
    (s.advance).status = s.status := rfl

@[simp] theorem State.advance_steps (s : State) :
    (s.advance).steps = s.steps := rfl

@[simp] theorem State.advance_answered (s : State) :
    (s.advance).answered = s.answered := rfl

@[simp] theorem State.advance_byteAt (s : State) (a : Nat) :
    (s.advance).byteAt a = s.byteAt a := rfl

@[simp] theorem State.advance_uTape (s : State) (k : Nat) :
    (s.advance).uTape k = s.uTape k := by
  cases k with
  | zero => rfl
  | succ k => cases k <;> rfl

@[simp] theorem State.advance_uReg (s : State) (k : Nat) :
    (s.advance).uReg k = s.uReg k := rfl

@[simp] theorem State.advance_sReg (s : State) (k : Nat) :
    (s.advance).sReg k = s.sReg k := rfl

/-! ## `State.writeResult` -/

@[simp] theorem State.writeResult_cfg (s : State) (i : Nat) (r : Word s.cfg.W) (f : Bool) :
    (s.writeResult i r f).cfg = s.cfg := rfl

@[simp] theorem State.writeResult_prog (s : State) (i : Nat) (r : Word s.cfg.W) (f : Bool) :
    (s.writeResult i r f).prog = s.prog := rfl

@[simp] theorem State.writeResult_pc (s : State) (i : Nat) (r : Word s.cfg.W) (f : Bool) :
    (s.writeResult i r f).pc = s.nextPc := rfl

@[simp] theorem State.writeResult_regs (s : State) (i : Nat) (r : Word s.cfg.W) (f : Bool) :
    (s.writeResult i r f).regs = s.regs.setIfInBounds i r := rfl

@[simp] theorem State.writeResult_flag (s : State) (i : Nat) (r : Word s.cfg.W) (f : Bool) :
    (s.writeResult i r f).flag = f := rfl

@[simp] theorem State.writeResult_mem (s : State) (i : Nat) (r : Word s.cfg.W) (f : Bool) :
    (s.writeResult i r f).mem = s.mem := rfl

@[simp] theorem State.writeResult_tape0 (s : State) (i : Nat) (r : Word s.cfg.W) (f : Bool) :
    (s.writeResult i r f).tape0 = s.tape0 := rfl

@[simp] theorem State.writeResult_tape1 (s : State) (i : Nat) (r : Word s.cfg.W) (f : Bool) :
    (s.writeResult i r f).tape1 = s.tape1 := rfl

@[simp] theorem State.writeResult_status (s : State) (i : Nat) (r : Word s.cfg.W) (f : Bool) :
    (s.writeResult i r f).status = s.status := rfl

@[simp] theorem State.writeResult_steps (s : State) (i : Nat) (r : Word s.cfg.W) (f : Bool) :
    (s.writeResult i r f).steps = s.steps := rfl

@[simp] theorem State.writeResult_answered (s : State) (i : Nat) (r : Word s.cfg.W) (f : Bool) :
    (s.writeResult i r f).answered = s.answered := rfl

@[simp] theorem State.writeResult_byteAt (s : State) (i : Nat) (r : Word s.cfg.W) (f : Bool) (a : Nat) :
    (s.writeResult i r f).byteAt a = s.byteAt a := rfl

@[simp] theorem State.writeResult_uTape (s : State) (i : Nat) (r : Word s.cfg.W) (f : Bool) (k : Nat) :
    (s.writeResult i r f).uTape k = s.uTape k := by
  cases k with
  | zero => rfl
  | succ k => cases k <;> rfl

/-! ## What an update changes in what is read off a state -/

theorem getD_setIfInBounds {α : Type} {m : Nat} (xs : Vector α m) (i k : Nat) (x d : α) :
    ((xs.setIfInBounds i x)[k]?).getD d = if i = k ∧ i < m then x else (xs[k]?).getD d := by
  rw [Vector.getElem?_setIfInBounds]
  by_cases h : i = k
  · subst h
    by_cases hi : i < m <;> simp [hi]
  · simp [h]

/-- A register reads as written, and no other register changes (10_state.md R21). -/
theorem State.setReg_reg (s : State) (n k : Nat) (v : Word s.cfg.W) :
    (s.setReg n v).reg k = if n = k ∧ n < s.cfg.K then v else s.reg k := getD_setIfInBounds s.regs n k v 0

@[simp] theorem State.setReg_uReg (s : State) (n k : Nat) (v : Word s.cfg.W) :
    (s.setReg n v).uReg k = if n = k ∧ n < s.cfg.K then v.toNat else s.uReg k :=
  (congrArg BitVec.toNat (State.setReg_reg s n k v)).trans (apply_ite BitVec.toNat _ _ _)

@[simp] theorem State.writeResult_uReg (s : State) (i k : Nat) (r : Word s.cfg.W) (f : Bool) :
    (s.writeResult i r f).uReg k = if i = k ∧ i < s.cfg.K then r.toNat else s.uReg k := State.setReg_uReg s i k r

@[simp] theorem State.setPc_uPc (s : State) (v : Word s.cfg.W) : (s.setPc v).uPc = v.toNat := rfl

@[simp] theorem State.setAnswered_answered (s : State) (v : Word s.cfg.W) :
    (s.setAnswered v).answered = some v.toNat := rfl

@[simp] theorem State.setMem_byteAt (s : State) (m : Memory) (a : Nat) :
    (s.setMem m).byteAt a = Memory.read m a := rfl

/-- `next_pc` as an integer (10_state.md R23). -/
@[simp] theorem State.nextPc_toNat (s : State) : s.nextPc.toNat = (s.uPc + s.cfg.pcInc) % 2 ^ s.cfg.W :=
  BitVec.toNat_ofNat _ _

@[simp] theorem State.advance_uPc (s : State) : s.advance.uPc = (s.uPc + s.cfg.pcInc) % 2 ^ s.cfg.W :=
  State.nextPc_toNat s

@[simp] theorem State.writeResult_uPc (s : State) (i : Nat) (r : Word s.cfg.W) (f : Bool) :
    (s.writeResult i r f).uPc = (s.uPc + s.cfg.pcInc) % 2 ^ s.cfg.W := State.nextPc_toNat s

/-- Consuming removes the first word of the tape it names and leaves the other tape as it was (47_input_operation.md
R169). -/
@[simp] theorem State.consume_uTape (s : State) (t k : Nat) :
    (s.consume t).uTape k = if k = t then (s.uTape k).tail else s.uTape k := by
  match k with
  | 0 => by_cases h : t = 0 <;> simp [State.uTape, State.rem, State.consume, h, eq_comm, List.map_tail]
  | 1 => by_cases h : t = 1 <;> simp [State.uTape, State.rem, State.consume, h, eq_comm, List.map_tail]
  | _ + 2 => simp [State.uTape, State.rem]

end Sys2Proof.Machine
end

