-- ==== Sys2Proof/Laws/Memory.lean ====
section
/-!
SUPPORT. Memory: what a read gives after a write, and that every operation keeps the canonical form (20_memory.md R51 to
R53, R59).
-/

namespace Sys2Proof.Machine

/-! ## One byte -/

theorem read_remove (m : Memory) (a c : Nat) :
    Memory.read (Memory.remove m a) c = if c = a then unlistedByte else Memory.read m c := by
  induction m with
  | nil => simp [Memory.remove, Memory.read]
  | cons p m ih =>
    rw [Memory.remove] at ih
    by_cases h : p.1 = a <;> by_cases hc : c = a <;> by_cases hp : p.1 = c <;>
      simp_all [Memory.remove, Memory.read]

theorem read_insert (m : Memory) (a : Nat) (b : Byte) (c : Nat) (h : ∀ p ∈ m, p.1 ≠ a) :
    Memory.read (Memory.insert m a b) c = if c = a then b else Memory.read m c := by
  have hac : (a = c) = (c = a) := propext eq_comm
  induction m with
  | nil => simp only [Memory.insert, Memory.read, hac]
  | cons p m ih =>
    have ih' := ih fun q hq => h q (List.mem_cons_of_mem _ hq)
    have hp := h p List.mem_cons_self
    unfold Memory.insert
    split
    · simp only [Memory.read, ih']
      by_cases hc : c = a
      · simp [hc, hp]
      · simp [hc]
    · simp only [Memory.read, hac]

theorem mem_remove {m : Memory} {a : Nat} {p : Host.Cell} : p ∈ Memory.remove m a ↔ p ∈ m ∧ p.1 ≠ a := by
  simp [Memory.remove]

theorem mem_insert {m : Memory} {a : Nat} {b : Byte} {p : Host.Cell} :
    p ∈ Memory.insert m a b ↔ p = (a, b) ∨ p ∈ m := by
  induction m with
  | nil => simp [Memory.insert]
  | cons q m ih => by_cases h : q.1 < a <;> simp [Memory.insert, h, ih, or_left_comm]

/-- A read gives the byte last written there, and a write leaves every other byte alone (20_memory.md R51). -/
@[simp] theorem read_write (m : Memory) (a : Nat) (b : Byte) (c : Nat) :
    Memory.read (Memory.write m a b) c = if c = a then b else Memory.read m c := by
  unfold Memory.write
  split
  · next hb => rw [read_remove, hb]
  · rw [read_insert _ _ _ _ fun p hp => (mem_remove.1 hp).2, read_remove]
    by_cases hc : c = a <;> simp [hc]

theorem mem_write {m : Memory} {a : Nat} {b : Byte} {p : Host.Cell} (h : p ∈ Memory.write m a b) :
    p ∈ m ∨ p.1 = a := by
  unfold Memory.write at h
  split at h
  · exact .inl (mem_remove.1 h).1
  · rcases mem_insert.1 h with rfl | h
    · exact .inr rfl
    · exact .inl (mem_remove.1 h).1

theorem insert_rising {m : Memory} {a : Nat} {b : Byte} (hm : m.Pairwise fun p q => p.1 < q.1)
    (ha : ∀ p ∈ m, p.1 ≠ a) : (Memory.insert m a b).Pairwise fun p q => p.1 < q.1 := by
  induction m with
  | nil => simp [Memory.insert]
  | cons q m ih =>
    have hq := ha q List.mem_cons_self
    rw [List.pairwise_cons] at hm
    unfold Memory.insert
    split
    · next hlt =>
      refine List.pairwise_cons.2 ⟨fun p hp => ?_, ih hm.2 fun p hp => ha p (List.mem_cons_of_mem _ hp)⟩
      rcases mem_insert.1 hp with rfl | hp
      · exact hlt
      · exact hm.1 p hp
    · next hlt =>
      have hgt : a < q.1 := by omega
      refine List.pairwise_cons.2 ⟨fun p hp => ?_, List.pairwise_cons.2 hm⟩
      rcases List.mem_cons.1 hp with rfl | hp
      · exact hgt
      · exact hgt.trans (hm.1 p hp)

/-- A write keeps the canonical form. -/
theorem wf_write {m : Memory} (h : Memory.wf m) (a : Nat) (b : Byte) : Memory.wf (Memory.write m a b) := by
  have hr : (Memory.remove m a).Pairwise fun p q => p.1 < q.1 := h.1.filter _
  have hn : ∀ p ∈ Memory.remove m a, p.2 ≠ unlistedByte := fun p hp => h.2 p (mem_remove.1 hp).1
  unfold Memory.write
  split
  · exact ⟨hr, hn⟩
  · next hb =>
    refine ⟨insert_rising hr fun p hp => (mem_remove.1 hp).2, fun p hp => ?_⟩
    rcases mem_insert.1 hp with rfl | hp
    · exact hb
    · exact hn p hp

/-! ## Blocks of bytes -/

@[simp] theorem readBytes_length (m : Memory) (w a n : Nat) : (Memory.readBytes m w a n).length = n := by
  induction n generalizing a with
  | zero => rfl
  | succ n ih => simp [Memory.readBytes, ih]

theorem readBytes_getD (m : Memory) (w a n k : Nat) (hk : k < n) :
    (Memory.readBytes m w a n).getD k 0 = Memory.read m ((a + k) % 2 ^ w) := by
  induction n generalizing a k with
  | zero => omega
  | succ n ih =>
    cases k with
    | zero => simp [Memory.readBytes]
    | succ k =>
      have h := ih (a + 1) k (by omega)
      rw [show a + 1 + k = a + (k + 1) by omega] at h
      simpa [Memory.readBytes] using h

/-- Byte `k` of `MemRead(a, n)` (20_memory.md R52). -/
theorem memRead_byte (m : Memory) (w a n k : Nat) (hk : k < n) :
    (memRead m w a n).extractLsb' (8 * k) 8 = Memory.read m ((a + k) % 2 ^ w) := by
  rw [memRead, blockOfBytes_extract n _ k hk, readBytes_getD m w a n k hk]

/-- What a block write leaves at an address it does not reach. -/
theorem read_writeBytes_outside (m : Memory) (w a : Nat) (bs : List Byte) (c : Nat)
    (h : ∀ k, k < bs.length → c ≠ (a + k) % 2 ^ w) : Memory.read (Memory.writeBytes m w a bs) c = Memory.read m c := by
  induction bs generalizing m a with
  | nil => rfl
  | cons b bs ih =>
    rw [Memory.writeBytes, ih _ _ fun k hk => ?_, read_write, if_neg]
    · simpa using h 0 (by simp)
    · have := h (k + 1) (by simpa using hk)
      rwa [show a + (k + 1) = a + 1 + k by omega] at this

/-- What a block write of at most `2^w` bytes leaves at the addresses it reaches. -/
theorem read_writeBytes_inside (m : Memory) (w a : Nat) (bs : List Byte) (k : Nat) (hn : bs.length ≤ 2 ^ w)
    (hk : k < bs.length) : Memory.read (Memory.writeBytes m w a bs) ((a + k) % 2 ^ w) = bs.getD k 0 := by
  induction bs generalizing m a k with
  | nil => simp at hk
  | cons b bs ih =>
    simp only [List.length_cons] at hn hk
    rw [Memory.writeBytes]
    cases k with
    | zero =>
      rw [read_writeBytes_outside _ _ _ _ _ fun j hj => ?_]
      · simp
      · intro he
        have h2 : (a + 0) % 2 ^ w = (a + (1 + j)) % 2 ^ w := by rw [he, Nat.add_assoc]
        have h3 : (0 : Nat) ≡ 1 + j [MOD 2 ^ w] := Nat.ModEq.add_left_cancel' a h2
        have h4 := Nat.le_of_dvd (by omega) ((Nat.modEq_zero_iff_dvd).1 h3.symm)
        omega
    | succ k =>
      have := ih (Memory.write m (a % 2 ^ w) b) (a + 1) k (by omega) (by omega)
      rw [show a + 1 + k = a + (k + 1) by omega] at this
      rw [this]
      rfl

theorem wf_writeBytes {m : Memory} (h : Memory.wf m) (w a : Nat) (bs : List Byte) :
    Memory.wf (Memory.writeBytes m w a bs) := by
  induction bs generalizing m a with
  | nil => exact h
  | cons b bs ih => exact ih (wf_write h _ _) _

theorem bounded_writeBytes {m : Memory} {w : Nat} (h : ∀ p ∈ m, p.1 < 2 ^ w) (a : Nat) (bs : List Byte) :
    ∀ p ∈ Memory.writeBytes m w a bs, p.1 < 2 ^ w := by
  induction bs generalizing m a with
  | nil => exact h
  | cons b bs ih =>
    refine ih (fun p hp => ?_) _
    rcases mem_write hp with hp | hp
    · exact h p hp
    · rw [hp]; exact Nat.mod_lt _ (Nat.two_pow_pos w)

/-- `MemWrite` keeps the canonical form. -/
theorem wf_memWrite {m : Memory} (h : Memory.wf m) (w a n : Nat) (v : BitVec (8 * n)) :
    Memory.wf (memWrite m w a n v) := wf_writeBytes h w a _

/-- `MemWrite` stays within the `2^w` addresses. -/
theorem bounded_memWrite {m : Memory} {w : Nat} (h : ∀ p ∈ m, p.1 < 2 ^ w) (a n : Nat) (v : BitVec (8 * n)) :
    ∀ p ∈ memWrite m w a n v, p.1 < 2 ^ w := bounded_writeBytes h a _

/-- What `MemWrite` of a block that does not wrap leaves at every address (20_memory.md R53). -/
theorem read_memWrite (m : Memory) (w a n : Nat) (v : BitVec (8 * n)) (h : a + n ≤ 2 ^ w) (c : Nat) :
    Memory.read (memWrite m w a n v) c
      = if a ≤ c ∧ c < a + n then v.extractLsb' (8 * (c - a)) 8 else Memory.read m c := by
  unfold memWrite
  split
  · next hc =>
    have h1 := read_writeBytes_inside m w a (bytesOfBlock n v) (c - a) (by simp; omega) (by simp; omega)
    rw [bytesOfBlock_getD n v _ (by omega), show a + (c - a) = c by omega, Nat.mod_eq_of_lt (by omega)] at h1
    exact h1
  · next hc =>
    refine read_writeBytes_outside m w a _ c fun k hk => ?_
    rw [bytesOfBlock_length] at hk
    rw [Nat.mod_eq_of_lt (by omega)]
    omega

/-- `MemRead` of a block just written gives the block (20_memory.md R65). -/
theorem memRead_memWrite (m : Memory) (w a n : Nat) (v : BitVec (8 * n)) (h : a + n ≤ 2 ^ w) :
    memRead (memWrite m w a n v) w a n = v :=
  block_eq_of_bytes fun k hk => by
    rw [memRead_byte _ _ _ _ _ hk, Nat.mod_eq_of_lt (by omega), read_memWrite m w a n v h, if_pos (by omega),
      show a + k - a = k by omega]

/-- `MemRead` depends only on the bytes it reads. -/
theorem memRead_congr {m m' : Memory} {w a n : Nat}
    (h : ∀ k, k < n → Memory.read m ((a + k) % 2 ^ w) = Memory.read m' ((a + k) % 2 ^ w)) :
    memRead m w a n = memRead m' w a n :=
  block_eq_of_bytes fun k hk => by rw [memRead_byte _ _ _ _ _ hk, memRead_byte _ _ _ _ _ hk, h k hk]

/-! ## Aligned addresses -/

theorem sub_mod_add_le {v n t : Nat} (hn : n ∣ t) (hv : v < t) : v - v % n + n ≤ t := by
  obtain ⟨q, rfl⟩ := hn
  have h1 : v - v % n = n * (v / n) := by have := Nat.div_add_mod v n; omega
  have h2 : v / n < q := Nat.div_lt_of_lt_mul hv
  rw [h1, show n * (v / n) + n = n * (v / n + 1) by ring]
  exact Nat.mul_le_mul_left n h2

theorem WB_dvd_pow (c : Config) : c.WB ∣ 2 ^ c.W :=
  Nat.pow_dvd_pow 2 (by have := c.logWB.lt_two_pow_self; simp only [Config.W, Config.WB]; omega)

theorem DWB_dvd_pow (c : Config) : c.DWB ∣ 2 ^ c.W := by
  have h : c.DWB = 2 ^ (c.logWB + 1) := by simp only [Config.DWB, Config.WB]; ring
  rw [h]
  exact Nat.pow_dvd_pow 2 (by have := c.logWB.lt_two_pow_self; simp only [Config.W, Config.WB]; omega)

/-- `wal` is the greatest multiple of `WB` that is not above the address (00_scope.md R14). -/
theorem wal_eq (c : Config) (v : Word c.W) : wal c v = v.toNat / c.WB * c.WB := by
  have := Nat.div_add_mod v.toNat c.WB
  unfold wal
  rw [Nat.mul_comm]
  omega

/-- `dwal` is the greatest multiple of `DWB` that is not above the address (00_scope.md R14). -/
theorem dwal_eq (c : Config) (v : Word c.W) : dwal c v = v.toNat / c.DWB * c.DWB := by
  have := Nat.div_add_mod v.toNat c.DWB
  unfold dwal
  rw [Nat.mul_comm]
  omega

/-- A word at a rounded-down address does not reach past the top of memory (20_memory.md R59). -/
theorem wal_add_le (c : Config) (v : Word c.W) : wal c v + c.WB ≤ 2 ^ c.W :=
  sub_mod_add_le (WB_dvd_pow c) v.isLt

/-- A double word at a rounded-down address does not reach past the top of memory (20_memory.md R59). -/
theorem dwal_add_le (c : Config) (v : Word c.W) : dwal c v + c.DWB ≤ 2 ^ c.W :=
  sub_mod_add_le (DWB_dvd_pow c) v.isLt

/-- What `MemWrite` to a word-aligned address leaves at every address (46_memory_operations.md R164). -/
theorem read_memWrite_word (m : Memory) (c : Config) (v : Word c.W) (x : BitVec (8 * c.WB)) (b : Nat) :
    Memory.read (memWrite m c.W (wal c v) c.WB x) b
      = if wal c v ≤ b ∧ b < wal c v + c.WB then x.extractLsb' (8 * (b - wal c v)) 8 else Memory.read m b :=
  read_memWrite m _ _ _ x (wal_add_le c v) b

/-- What `MemWrite` of one byte leaves at every address (46_memory_operations.md R162). -/
theorem read_memWrite_byte (m : Memory) (c : Config) (v : Word c.W) (x : BitVec (8 * 1)) (b : Nat) :
    Memory.read (memWrite m c.W v.toNat 1 x) b = if b = v.toNat then x else Memory.read m b := by
  rw [read_memWrite m _ _ _ x v.isLt b]
  by_cases h : b = v.toNat
  · subst h
    simp
  · rw [if_neg (by omega), if_neg h]

end Sys2Proof.Machine
end

