-- ==== Sys2Proof/Laws/Exec.lean ====
section
/-!
SUPPORT. What `guarded`, `exec`, `fetch` and `step` can do, said once (10_state.md R38).
-/

namespace Sys2Proof.Machine

/-! ## The guard on operands -/

/-- The guard answers the next state `t` exactly when the operands are those of the machine and `t` is the state given. -/
theorem guarded_eq_next {s : State} {rs : List Nat} {a : Operand} {k t : State} :
    guarded s rs a k = .next t ↔ OperandsOk s.cfg rs a ∧ t = k := by
  have h := checkOperands_eq_none s.cfg rs a
  unfold guarded OperandsOk
  split
  · next e he =>
    simp only [he, reduceCtorEq, false_iff] at h
    simp [h]
  · next he => exact ⟨fun hk => ⟨h.1 he, (Host.Outcome.next.inj hk).symm⟩, fun hk => by rw [hk.2]⟩

/-- With operands of the machine the guard answers the state given. -/
theorem guarded_ok {s : State} {rs : List Nat} {a : Operand} {k : State} (h : OperandsOk s.cfg rs a) :
    guarded s rs a k = .next k := guarded_eq_next.2 ⟨h, rfl⟩

/-- The guard never faults; otherwise it refuses for the reason that the check gives. -/
theorem guarded_refused {s : State} {rs : List Nat} {a : Operand} {k : State} (h : ¬ OperandsOk s.cfg rs a) :
    ∃ e, checkOperands s.cfg rs a = some e ∧ guarded s rs a k = .refused (.notAnInstruction e) := by
  cases he : checkOperands s.cfg rs a with
  | none => exact absurd ((checkOperands_eq_none _ _ _).1 he) h
  | some e => exact ⟨e, rfl, by simp [guarded, he]⟩

/-- An immediate that is a word, read as operand `A`, is itself (30_encoding.md R90). -/
theorem uA_imm {s : State} {v : Nat} (h : v < 2 ^ s.cfg.W) : s.uA (.imm v) = v :=
  (BitVec.toNat_ofNat _ _).trans (Nat.mod_eq_of_lt h)

/-- A register, read as operand `A`, is its contents (30_encoding.md R90). -/
theorem uA_reg (s : State) (n : Nat) : s.uA (.reg n) = s.uReg n := rfl

/-- 1 is an immediate of every machine. -/
theorem one_wf (c : Config) : (Operand.imm 1).wf c = true := by
  have := W_pos c
  simp only [Operand.wf, decide_eq_true_eq]
  exact Nat.one_lt_two_pow (by omega)

/-! ## The effect of an instruction -/

/-- The state after an instruction whose operands are those of the machine. -/
def effectOf (i : Instr) (s : State) : State :=
  match i with
  | .and i j a => bitStep s i (s.reg j &&& s.valA a)
  | .or i j a => bitStep s i (s.reg j ||| s.valA a)
  | .xor i j a => bitStep s i (s.reg j ^^^ s.valA a)
  | .not i a => bitStep s i (~~~ s.valA a)
  | .add i j a => s.writeResult i (addResult (s.reg j) (s.valA a)) (carryFlag (s.reg j) (s.valA a))
  | .sub i j a => s.writeResult i (subResult (s.reg j) (s.valA a)) (borrowFlag (s.reg j) (s.valA a))
  | .mull i j a => s.writeResult i (mullResult (s.reg j) (s.valA a)) (umulFlag (s.reg j) (s.valA a))
  | .umulh i j a => s.writeResult i (umulhResult (s.reg j) (s.valA a)) (umulFlag (s.reg j) (s.valA a))
  | .smulh i j a => s.writeResult i (smulhResult s.cfg.smulh (s.reg j) (s.valA a)) (smulFlag (s.reg j) (s.valA a))
  | .udiv i j a => s.writeResult i (udivResult (s.reg j) (s.valA a)) (divFlag (s.valA a))
  | .umod i j a => s.writeResult i (umodResult (s.reg j) (s.valA a)) (divFlag (s.valA a))
  | .shl i j a => s.writeResult i (shlResult (s.reg j) (s.valA a).toNat) (msbFlag (s.reg j))
  | .shr i j a => s.writeResult i (shrResult (s.reg j) (s.valA a).toNat) (lsbFlag (s.reg j))
  | .cmpe i a => (s.setFlag (equalFlag (s.reg i) (s.valA a))).advance
  | .cmpa i a => (s.setFlag (aboveFlag (s.reg i) (s.valA a))).advance
  | .cmpae i a => (s.setFlag (aboveEqualFlag (s.reg i) (s.valA a))).advance
  | .cmpg i a => (s.setFlag (greaterFlag (s.reg i) (s.valA a))).advance
  | .cmpge i a => (s.setFlag (greaterEqualFlag (s.reg i) (s.valA a))).advance
  | .mov i a => (s.setReg i (s.valA a)).advance
  | .cmov i a => if s.flag then (s.setReg i (s.valA a)).advance else s.advance
  | .jmp a => s.setPc (s.valA a)
  | .cjmp a => if s.flag then s.setPc (s.valA a) else s.advance
  | .cnjmp a => if s.flag then s.advance else s.setPc (s.valA a)
  | .storeB a i => (s.setMem (memWrite s.mem s.cfg.W (byteAddr s a) 1 ((s.reg i).extractLsb' 0 8))).advance
  | .loadB i a => (s.setReg i ((memRead s.mem s.cfg.W (byteAddr s a) 1).setWidth s.cfg.W)).advance
  | .storeW a i => (s.setMem (memWrite s.mem s.cfg.W (wordAddr s a) s.cfg.WB (s.reg i))).advance
  | .loadW i a => (s.setReg i (memRead s.mem s.cfg.W (wordAddr s a) s.cfg.WB)).advance
  | .read i a =>
    (s.writeResult i ((s.rem (s.valA a).toNat).headD 0) (endOfTapeFlag (s.rem (s.valA a).toNat))).consume
      (s.valA a).toNat
  | .answer a => answerStep s (s.valA a)
  | .unassigned23 => answerStep s (s.valA (.imm 1))
  | .unassigned24 => answerStep s (s.valA (.imm 1))
  | .unassigned25 => answerStep s (s.valA (.imm 1))

/-- Executing an instruction is its effect behind the guard on its operands. -/
theorem exec_eq (i : Instr) (s : State) : exec i s = guarded s i.registers i.operandA (effectOf i s) := by
  have h1 : OperandsOk s.cfg [] (.imm 1) := ⟨by simp, one_wf _⟩
  cases i
  case unassigned23 => exact (guarded_ok h1).symm
  case unassigned24 => exact (guarded_ok h1).symm
  case unassigned25 => exact (guarded_ok h1).symm
  all_goals rfl

/-- An instruction completes exactly when it is one of the machine, and then with its effect (30_encoding.md R95,
60_exceptions.md R180). -/
theorem exec_eq_next {i : Instr} {s t : State} : exec i s = .next t ↔ i.wf s.cfg = true ∧ t = effectOf i s := by
  rw [exec_eq, guarded_eq_next, wf_iff]

/-- An instruction that is none of the machine is refused for the reason that the check gives (30_encoding.md R95). -/
theorem exec_refused {i : Instr} {s : State} (h : ¬ i.wf s.cfg = true) :
    ∃ e, checkOperands s.cfg i.registers i.operandA = some e ∧ exec i s = .refused (.notAnInstruction e) := by
  rw [exec_eq]
  exact guarded_refused fun ho => h ((wf_iff _ _).2 ho)

/-- No instruction changes the parameters, the hv program or the count of steps (10_state.md R24, R37). -/
theorem effectOf_machine (i : Instr) (s : State) :
    (effectOf i s).cfg = s.cfg ∧ (effectOf i s).prog = s.prog ∧ (effectOf i s).steps = s.steps := by
  cases i <;> simp only [effectOf, bitStep, answerStep]
  all_goals first | exact ⟨rfl, rfl, rfl⟩ | (split <;> exact ⟨rfl, rfl, rfl⟩)

/-- Memory after an instruction is the memory before it, or that after one `MemWrite` (10_state.md R44). -/
theorem effectOf_mem (i : Instr) (s : State) :
    (effectOf i s).mem = s.mem ∨ ∃ a n v, (effectOf i s).mem = memWrite s.mem s.cfg.W a n v := by
  cases i
  case storeB a i => exact .inr ⟨_, _, _, rfl⟩
  case storeW a i => exact .inr ⟨_, _, _, rfl⟩
  all_goals simp only [effectOf, bitStep, answerStep]
  all_goals first | exact .inl rfl | (split <;> exact .inl rfl)

/-- The effect of an `answer` is the bookkeeping of its return value (48_answer_operation.md R172). -/
theorem effectOf_of_answer {s : State} {i : Instr} {v : Nat} (h : answerValue s i = some v) :
    ∃ x : Word s.cfg.W, x.toNat = v ∧ effectOf i s = s.setAnswered x := by
  cases i <;> simp [answerValue] at h <;> exact ⟨_, h, rfl⟩

/-- No other instruction touches that bookkeeping (10_state.md R37). -/
theorem effectOf_of_not_answer {s : State} {i : Instr} (h : answerValue s i = none) :
    (effectOf i s).answered = s.answered := by
  cases i <;> simp [answerValue] at h <;> simp only [effectOf, bitStep]
  all_goals first | rfl | (split <;> rfl)

/-! ## Fetch and step -/

@[simp] theorem refusing_eq_ok {r : Except DecodeError Instr} {i : Instr} : refusing r = .ok i ↔ r = .ok i := by
  cases r <;> simp [refusing]

/-- What is fetched is an instruction of the machine (10_state.md R24, 30_encoding.md R95). -/
theorem fetch_wf {s : State} {i : Instr} (h : fetch s = .ok i) : i.wf s.cfg = true := by
  unfold fetch at h
  split at h
  · split at h
    · unfold fetchHv at h
      split at h
      · obtain ⟨rfl, hw⟩ := (checkInstr_eq_ok _ _ _).1 (refusing_eq_ok.1 h)
        exact hw
      · cases h
    · exact ((decode_eq_ok _ _ _).1 (refusing_eq_ok.1 h)).2.2
  · cases h

/-- In vn the fetch decodes the double word at `pc` rounded down (10_state.md R28). -/
theorem fetch_vn_eq_ok {s : State} {i : Instr} (hl : s.cfg.legal) (ha : s.cfg.arch = .vn) :
    fetch s = .ok i ↔ decode s.cfg (fetchWord s) = .ok i := by
  unfold fetch
  rw [if_pos hl, ha]
  exact refusing_eq_ok

/-- The double word that is fetched is made of its bytes in memory, the least significant first (20_memory.md R52). -/
theorem fetchWord_eq {s : State} {bs : List Byte}
    (h : ∀ k, k < s.cfg.DWB → s.byteAt (s.uPc / s.cfg.DWB * s.cfg.DWB + k) = bs.getD k 0) :
    fetchWord s = blockOfBytes s.cfg.DWB bs := by
  refine block_eq_of_bytes fun k hk => ?_
  have hb := dwal_add_le s.cfg s.pc
  rw [fetchWord, memRead_byte _ _ _ _ _ hk, blockOfBytes_extract _ _ _ hk, Nat.mod_eq_of_lt (by omega), dwal_eq]
  exact h k hk

/-- In hv the fetch takes the instruction at `pc` from the program, and `answer 1` past its end (10_state.md R25). -/
theorem fetch_hv_eq_ok {s : State} {i : Instr} (hl : s.cfg.legal) (ha : s.cfg.arch = .hv)
    (hp : s.prog.length ≤ 2 ^ s.cfg.W) :
    fetch s = .ok i ↔ i = (s.prog[s.uPc]?).getD (.answer (.imm 1)) ∧ i.wf s.cfg = true := by
  unfold fetch
  rw [if_pos hl, ha]
  simp only [fetchHv]
  rw [if_pos hp, refusing_eq_ok, checkInstr_eq_ok, List.getD_eq_getElem?_getD]
  constructor
  · rintro ⟨rfl, hw⟩
    exact ⟨rfl, hw⟩
  · rintro ⟨rfl, hw⟩
    exact ⟨rfl, hw⟩

/-- What a step can do: the run goes on, an instruction is fetched, and the next state is its effect with one more step
counted (10_state.md R38). -/
theorem step_eq_next {s t : State} :
    step s = .next t ↔ hasHalted s = false ∧ ∃ i, fetch s = .ok i ∧ t = (effectOf i s).countStep := by
  unfold step
  by_cases hh : hasHalted s = true
  · simp [hh]
  · simp only [hh, if_false, Bool.false_eq_true]
    cases hf : fetch s with
    | error r => simp
    | ok i =>
      have he : exec i s = .next (effectOf i s) := exec_eq_next.2 ⟨fetch_wf hf, rfl⟩
      simp [he, counted, eq_comm]

end Sys2Proof.Machine
end

