-- ==== Sys2Proof/Laws/Effects.lean ====
section
/-!
SUPPORT. What each shared ending of an instruction does to a state, said once, and the value of each result and flag over
the integers.
-/

namespace Sys2Proof.Machine

/-! ## Endings -/

theorem SameRegs.refl (s : State) : SameRegs [] s s := fun _ _ => rfl

/-- A register write changes no other register. -/
theorem sameRegs_setReg (s : State) (i : Nat) (v : Word s.cfg.W) : SameRegs [i] s (s.setReg i v) := fun n hn => by
  rw [State.setReg_uReg, if_neg]
  rintro ⟨rfl, -⟩
  simp at hn

/-- A result, a flag and `pc` are written and nothing else. -/
theorem writesResult_writeResult {s : State} {i n : Nat} {r : Word s.cfg.W} {f g : Bool} (hi : i < s.cfg.K)
    (hr : r.toNat = n) (hf : f = g) : WritesResult s (s.writeResult i r f) i n g := by
  subst hr hf
  exact ⟨by simp [hi], rfl, State.writeResult_uPc s i r f, sameRegs_setReg s i r, fun _ => rfl, ⟨rfl, rfl⟩,
    State.writeResult_uTape s i r f, rfl, rfl⟩

/-- A result without a flag. -/
theorem writesResult_setReg {s : State} {i n : Nat} {r : Word s.cfg.W} (hi : i < s.cfg.K) (hr : r.toNat = n) :
    WritesResult s (s.setReg i r).advance i n s.flag := by
  subst hr
  exact ⟨by simp [hi], rfl, State.advance_uPc (s.setReg i r), sameRegs_setReg s i r, fun _ => rfl, ⟨rfl, rfl⟩,
    fun n => by simp, rfl, rfl⟩

/-- No result: every register keeps its value. -/
theorem writesResult_advance (s : State) (i : Nat) : WritesResult s s.advance i (s.uReg i) s.flag :=
  ⟨rfl, rfl, State.advance_uPc s, fun _ _ => rfl, fun _ => rfl, ⟨rfl, rfl⟩, State.advance_uTape s, rfl, rfl⟩

/-- A flag and `pc` are written and nothing else. -/
theorem writesFlag_setFlag {s : State} {f g : Bool} (hf : f = g) : WritesFlag s (s.setFlag f).advance g := by
  subst hf
  exact ⟨rfl, State.advance_uPc (s.setFlag f), fun _ _ => rfl, fun _ => rfl, ⟨rfl, rfl⟩, fun n => by simp, rfl, rfl⟩

/-- `pc` is written with a target and nothing else. -/
theorem writesPc_setPc (s : State) (v : Word s.cfg.W) : WritesPc s (s.setPc v) v.toNat :=
  ⟨rfl, rfl, fun _ _ => rfl, fun _ => rfl, ⟨rfl, rfl⟩, State.setPc_uTape s v, rfl, rfl⟩

/-- `pc` is advanced and nothing else. -/
theorem writesPc_advance (s : State) : WritesPc s s.advance ((s.uPc + s.cfg.pcInc) % 2 ^ s.cfg.W) :=
  ⟨State.advance_uPc s, rfl, fun _ _ => rfl, fun _ => rfl, ⟨rfl, rfl⟩, State.advance_uTape s, rfl, rfl⟩

/-- The return value is noted and nothing else. -/
theorem endsRun_answerStep (s : State) (v : Word s.cfg.W) : EndsRun s (answerStep s v) v.toNat :=
  ⟨rfl, rfl, rfl, fun _ _ => rfl, fun _ => rfl, State.setAnswered_uTape s v, ⟨rfl, rfl⟩, rfl⟩

/-- `pc` and memory are written and nothing else. -/
theorem sameRest_setMem_advance (s : State) (m : Memory) :
    (s.setMem m).advance.flag = s.flag ∧ Advanced s (s.setMem m).advance ∧ SameRegs [] s (s.setMem m).advance ∧
      SameRest s (s.setMem m).advance :=
  ⟨rfl, State.advance_uPc (s.setMem m), fun _ _ => rfl, ⟨rfl, rfl⟩, fun n => by simp, rfl, rfl⟩

/-! ## Results and flags over the integers -/

theorem addResult_toNat {w : Nat} (x y : Word w) : (addResult x y).toNat = (x.toNat + y.toNat) % 2 ^ w :=
  BitVec.toNat_ofNat _ _

theorem subResult_toNat {w : Nat} (x y : Word w) : (subResult x y).toNat = (x.toNat + 2 ^ w - y.toNat) % 2 ^ w :=
  BitVec.toNat_ofNat _ _

theorem mullResult_toNat {w : Nat} (x y : Word w) : (mullResult x y).toNat = x.toNat * y.toNat % 2 ^ w :=
  BitVec.toNat_ofNat _ _

theorem mul_lt_pow_two_mul {w : Nat} (x y : Word w) : x.toNat * y.toNat < 2 ^ w * 2 ^ w :=
  Nat.mul_lt_mul'' x.isLt y.isLt

theorem umulhResult_toNat {w : Nat} (x y : Word w) : (umulhResult x y).toNat = x.toNat * y.toNat / 2 ^ w := by
  rw [umulhResult, BitVec.toNat_ofNat, Nat.mod_eq_of_lt]
  exact Nat.div_lt_of_lt_mul (mul_lt_pow_two_mul x y)

theorem udivResult_toNat {w : Nat} (x y : Word w) : (udivResult x y).toNat = x.toNat / y.toNat := by
  unfold udivResult
  split
  · next h => simp [h]
  · rw [BitVec.toNat_ofNat, Nat.mod_eq_of_lt ((Nat.div_le_self _ _).trans_lt x.isLt)]

theorem umodResult_toNat {w : Nat} (x y : Word w) :
    (umodResult x y).toNat = if y.toNat = 0 then 0 else x.toNat % y.toNat := by
  unfold umodResult
  split
  · simp
  · rw [BitVec.toNat_ofNat, Nat.mod_eq_of_lt ((Nat.mod_le _ _).trans_lt x.isLt)]

theorem shlResult_toNat {w : Nat} (x : Word w) (n : Nat) :
    (shlResult x n).toNat = if n < w then x.toNat * 2 ^ n % 2 ^ w else 0 := by
  unfold shlResult
  by_cases h : n < w
  · rw [if_neg (by omega), if_pos h, BitVec.toNat_ofNat]
  · rw [if_pos (by omega), if_neg h]
    rfl

theorem shrResult_toNat {w : Nat} (x : Word w) (n : Nat) :
    (shrResult x n).toNat = if n < w then x.toNat / 2 ^ n else 0 := by
  unfold shrResult
  by_cases h : n < w
  · rw [if_neg (by omega), if_pos h, BitVec.toNat_ofNat, Nat.mod_eq_of_lt ((Nat.div_le_self _ _).trans_lt x.isLt)]
  · rw [if_pos (by omega), if_neg h]
    rfl

theorem zeroFlag_eq {w : Nat} (r : Word w) : zeroFlag r = decide (r.toNat = 0) := by
  unfold zeroFlag
  exact decide_eq_decide.2 BitVec.toNat_inj.symm

theorem borrowFlag_eq {w : Nat} (x y : Word w) : borrowFlag x y = decide (x.toNat < y.toNat) := by
  have := y.isLt
  exact decide_eq_decide.2 (by omega)

theorem equalFlag_eq {w : Nat} (x y : Word w) : equalFlag x y = decide (x.toNat = y.toNat) :=
  decide_eq_decide.2 BitVec.toNat_inj.symm

theorem lsbFlag_eq {w : Nat} (x : Word w) : lsbFlag x = decide (x.toNat % 2 = 1) := by
  simp [lsbFlag, BitVec.getLsbD, Nat.testBit_zero]

theorem msbFlag_eq {w : Nat} (x : Word w) (h : 0 < w) : msbFlag x = decide (2 ^ (w - 1) ≤ x.toNat) := by
  have hx := x.isLt
  obtain ⟨n, rfl⟩ : ∃ n, w = n + 1 := ⟨w - 1, by omega⟩
  simp only [msbFlag, BitVec.getLsbD, Nat.add_sub_cancel]
  rw [Nat.testBit_eq_decide_div_mod_eq]
  refine decide_eq_decide.2 ?_
  rw [pow_succ] at hx
  by_cases hb : 2 ^ n ≤ x.toNat
  · have : x.toNat / 2 ^ n = 1 :=
      (Nat.div_eq_iff (Nat.two_pow_pos n)).2 ⟨by omega, by omega⟩
    simp [this, hb]
  · rw [Nat.div_eq_of_lt (by omega)]
    simp [hb]

/-- The signed product lies strictly above `−2^(2W−2)` and at most at `2^(2W−2)` (41_integer_operations.md R135). -/
theorem abs_signed_mul_le {w : Nat} (x y : Word w) :
    (x.toInt * y.toInt).natAbs ≤ 2 ^ (w - 1) * 2 ^ (w - 1) := by
  have key : ∀ z : Word w, z.toInt.natAbs ≤ 2 ^ (w - 1) := fun z => by
    have h1 := BitVec.le_toInt z
    have h2 := BitVec.toInt_lt (x := z)
    have h3 : ((2 ^ (w - 1) : Nat) : Int) = 2 ^ (w - 1) := by push_cast; rfl
    omega
  rw [Int.natAbs_mul]
  exact Nat.mul_le_mul (key x) (key y)

end Sys2Proof.Machine
end

