-- ==== Sys2Proof/Laws/PerInstr.lean ====
section
/-!
SUPPORT. Families of lemmas over all instructions, one lemma for each constructor.
-/

namespace Sys2Proof.Laws

/-- The fields that the encoder writes for an instruction are the fields from which the decoder makes it, or makes
`answer 1` where its opcode is unassigned (30_encoding.md R89, R91, R93, R96), and for an instruction of the machine each
fits its width. -/
def FieldsRoundTrip.Statement (i : Instr) : Prop :=
  i.fields.instr = i.canonical ∧ i.fields.opcode < 32 ∧
    ∀ c : Config, i.wf c = true → c.encodable →
      i.fields.f3 < 2 ^ c.KB ∧ i.fields.f4 < 2 ^ c.KB ∧ i.fields.f6 < 2 ^ c.W

/-- Field #6 of an operand of the machine fits its width (30_encoding.md R87). -/
theorem ofOperands_f6_lt (c : Config) (op f3 f4 : Nat) (a : Operand) (ha : a.wf c = true) (he : c.encodable) :
    (Fields.ofOperands op f3 f4 a).f6 < 2 ^ c.W := by
  cases a with
  | imm v => simpa [Fields.ofOperands, Operand.wf] using ha
  | reg n =>
    have h1 : n < c.K := by simpa [Operand.wf] using ha
    have h2 : 2 ^ c.KB ≤ 2 ^ c.W := Nat.pow_le_pow_right (by omega) (by simp only [Config.encodable] at he; omega)
    exact h1.trans_le ((K_le_pow_KB c).trans h2)

/-- The opcode and the register fields of an operand's fields are those given. -/
theorem ofOperands_fields (op f3 f4 : Nat) (a : Operand) :
    (Fields.ofOperands op f3 f4 a).opcode = op ∧ (Fields.ofOperands op f3 f4 a).f3 = f3 ∧
      (Fields.ofOperands op f3 f4 a).f4 = f4 := by
  cases a <;> exact ⟨rfl, rfl, rfl⟩

/-- An instruction of the machine whose fields are `ofOperands op f3 f4 a` with register fields 0 or used. -/
theorem fieldsRoundTrip_of {i : Instr} {op f3 f4 : Nat} {a : Operand} (hf : i.fields = .ofOperands op f3 f4 a)
    (hi : i.fields.instr = i.canonical) (hop : op < 32) (ha : i.operandA = a) (h3 : f3 = 0 ∨ f3 ∈ i.registers)
    (h4 : f4 = 0 ∨ f4 ∈ i.registers) : FieldsRoundTrip.Statement i := by
  obtain ⟨e1, e2, e3⟩ := ofOperands_fields op f3 f4 a
  refine ⟨hi, by rw [hf, e1]; exact hop, fun c hw he => ?_⟩
  rw [wf_iff, ha] at hw
  have key : ∀ n, n = 0 ∨ n ∈ i.registers → n < 2 ^ c.KB := by
    rintro n (rfl | hn)
    · exact Nat.two_pow_pos _
    · exact (hw.1 n hn).trans_le (K_le_pow_KB c)
  rw [hf, e2, e3]
  exact ⟨key f3 h3, key f4 h4, ofOperands_f6_lt c op f3 f4 a hw.2 he⟩

/-- The fields of `answer 1`, which the encoder writes for an unassigned opcode (30_encoding.md R93, R96). -/
theorem fieldsRoundTrip_of_unassigned {i : Instr} (hf : i.fields = .ofOperands 31 0 0 (.imm 1))
    (hi : i.isUnassigned = true) : FieldsRoundTrip.Statement i := by
  refine ⟨by rw [hf, Instr.canonical, if_pos hi]; rfl, by rw [hf]; decide, fun c _ _ => ?_⟩
  have := W_pos c
  rw [hf]
  exact ⟨Nat.two_pow_pos _, Nat.two_pow_pos _, Nat.one_lt_two_pow (by omega)⟩

theorem FieldsRoundTrip.and (ri rj : Nat) (a : Operand) : FieldsRoundTrip.Statement (.and ri rj a) :=
  fieldsRoundTrip_of rfl (by cases a <;> rfl) (by decide) rfl (.inr (by simp [Instr.registers]))
    (.inr (by simp [Instr.registers]))

theorem FieldsRoundTrip.or (ri rj : Nat) (a : Operand) : FieldsRoundTrip.Statement (.or ri rj a) :=
  fieldsRoundTrip_of rfl (by cases a <;> rfl) (by decide) rfl (.inr (by simp [Instr.registers]))
    (.inr (by simp [Instr.registers]))

theorem FieldsRoundTrip.xor (ri rj : Nat) (a : Operand) : FieldsRoundTrip.Statement (.xor ri rj a) :=
  fieldsRoundTrip_of rfl (by cases a <;> rfl) (by decide) rfl (.inr (by simp [Instr.registers]))
    (.inr (by simp [Instr.registers]))

theorem FieldsRoundTrip.not (ri : Nat) (a : Operand) : FieldsRoundTrip.Statement (.not ri a) :=
  fieldsRoundTrip_of rfl (by cases a <;> rfl) (by decide) rfl (.inr (by simp [Instr.registers]))
    (.inl rfl)

theorem FieldsRoundTrip.add (ri rj : Nat) (a : Operand) : FieldsRoundTrip.Statement (.add ri rj a) :=
  fieldsRoundTrip_of rfl (by cases a <;> rfl) (by decide) rfl (.inr (by simp [Instr.registers]))
    (.inr (by simp [Instr.registers]))

theorem FieldsRoundTrip.sub (ri rj : Nat) (a : Operand) : FieldsRoundTrip.Statement (.sub ri rj a) :=
  fieldsRoundTrip_of rfl (by cases a <;> rfl) (by decide) rfl (.inr (by simp [Instr.registers]))
    (.inr (by simp [Instr.registers]))

theorem FieldsRoundTrip.mull (ri rj : Nat) (a : Operand) : FieldsRoundTrip.Statement (.mull ri rj a) :=
  fieldsRoundTrip_of rfl (by cases a <;> rfl) (by decide) rfl (.inr (by simp [Instr.registers]))
    (.inr (by simp [Instr.registers]))

theorem FieldsRoundTrip.umulh (ri rj : Nat) (a : Operand) : FieldsRoundTrip.Statement (.umulh ri rj a) :=
  fieldsRoundTrip_of rfl (by cases a <;> rfl) (by decide) rfl (.inr (by simp [Instr.registers]))
    (.inr (by simp [Instr.registers]))

theorem FieldsRoundTrip.smulh (ri rj : Nat) (a : Operand) : FieldsRoundTrip.Statement (.smulh ri rj a) :=
  fieldsRoundTrip_of rfl (by cases a <;> rfl) (by decide) rfl (.inr (by simp [Instr.registers]))
    (.inr (by simp [Instr.registers]))

theorem FieldsRoundTrip.udiv (ri rj : Nat) (a : Operand) : FieldsRoundTrip.Statement (.udiv ri rj a) :=
  fieldsRoundTrip_of rfl (by cases a <;> rfl) (by decide) rfl (.inr (by simp [Instr.registers]))
    (.inr (by simp [Instr.registers]))

theorem FieldsRoundTrip.umod (ri rj : Nat) (a : Operand) : FieldsRoundTrip.Statement (.umod ri rj a) :=
  fieldsRoundTrip_of rfl (by cases a <;> rfl) (by decide) rfl (.inr (by simp [Instr.registers]))
    (.inr (by simp [Instr.registers]))

theorem FieldsRoundTrip.shl (ri rj : Nat) (a : Operand) : FieldsRoundTrip.Statement (.shl ri rj a) :=
  fieldsRoundTrip_of rfl (by cases a <;> rfl) (by decide) rfl (.inr (by simp [Instr.registers]))
    (.inr (by simp [Instr.registers]))

theorem FieldsRoundTrip.shr (ri rj : Nat) (a : Operand) : FieldsRoundTrip.Statement (.shr ri rj a) :=
  fieldsRoundTrip_of rfl (by cases a <;> rfl) (by decide) rfl (.inr (by simp [Instr.registers]))
    (.inr (by simp [Instr.registers]))

theorem FieldsRoundTrip.cmpe (ri : Nat) (a : Operand) : FieldsRoundTrip.Statement (.cmpe ri a) :=
  fieldsRoundTrip_of rfl (by cases a <;> rfl) (by decide) rfl (.inl rfl)
    (.inr (by simp [Instr.registers]))

theorem FieldsRoundTrip.cmpa (ri : Nat) (a : Operand) : FieldsRoundTrip.Statement (.cmpa ri a) :=
  fieldsRoundTrip_of rfl (by cases a <;> rfl) (by decide) rfl (.inl rfl)
    (.inr (by simp [Instr.registers]))

theorem FieldsRoundTrip.cmpae (ri : Nat) (a : Operand) : FieldsRoundTrip.Statement (.cmpae ri a) :=
  fieldsRoundTrip_of rfl (by cases a <;> rfl) (by decide) rfl (.inl rfl)
    (.inr (by simp [Instr.registers]))

theorem FieldsRoundTrip.cmpg (ri : Nat) (a : Operand) : FieldsRoundTrip.Statement (.cmpg ri a) :=
  fieldsRoundTrip_of rfl (by cases a <;> rfl) (by decide) rfl (.inl rfl)
    (.inr (by simp [Instr.registers]))

theorem FieldsRoundTrip.cmpge (ri : Nat) (a : Operand) : FieldsRoundTrip.Statement (.cmpge ri a) :=
  fieldsRoundTrip_of rfl (by cases a <;> rfl) (by decide) rfl (.inl rfl)
    (.inr (by simp [Instr.registers]))

theorem FieldsRoundTrip.mov (ri : Nat) (a : Operand) : FieldsRoundTrip.Statement (.mov ri a) :=
  fieldsRoundTrip_of rfl (by cases a <;> rfl) (by decide) rfl (.inr (by simp [Instr.registers]))
    (.inl rfl)

theorem FieldsRoundTrip.cmov (ri : Nat) (a : Operand) : FieldsRoundTrip.Statement (.cmov ri a) :=
  fieldsRoundTrip_of rfl (by cases a <;> rfl) (by decide) rfl (.inr (by simp [Instr.registers]))
    (.inl rfl)

theorem FieldsRoundTrip.jmp (a : Operand) : FieldsRoundTrip.Statement (.jmp a) :=
  fieldsRoundTrip_of rfl (by cases a <;> rfl) (by decide) rfl (.inl rfl)
    (.inl rfl)

theorem FieldsRoundTrip.cjmp (a : Operand) : FieldsRoundTrip.Statement (.cjmp a) :=
  fieldsRoundTrip_of rfl (by cases a <;> rfl) (by decide) rfl (.inl rfl)
    (.inl rfl)

theorem FieldsRoundTrip.cnjmp (a : Operand) : FieldsRoundTrip.Statement (.cnjmp a) :=
  fieldsRoundTrip_of rfl (by cases a <;> rfl) (by decide) rfl (.inl rfl)
    (.inl rfl)

theorem FieldsRoundTrip.storeB (a : Operand) (ri : Nat) : FieldsRoundTrip.Statement (.storeB a ri) :=
  fieldsRoundTrip_of rfl (by cases a <;> rfl) (by decide) rfl (.inr (by simp [Instr.registers]))
    (.inl rfl)

theorem FieldsRoundTrip.loadB (ri : Nat) (a : Operand) : FieldsRoundTrip.Statement (.loadB ri a) :=
  fieldsRoundTrip_of rfl (by cases a <;> rfl) (by decide) rfl (.inr (by simp [Instr.registers]))
    (.inl rfl)

theorem FieldsRoundTrip.storeW (a : Operand) (ri : Nat) : FieldsRoundTrip.Statement (.storeW a ri) :=
  fieldsRoundTrip_of rfl (by cases a <;> rfl) (by decide) rfl (.inr (by simp [Instr.registers]))
    (.inl rfl)

theorem FieldsRoundTrip.loadW (ri : Nat) (a : Operand) : FieldsRoundTrip.Statement (.loadW ri a) :=
  fieldsRoundTrip_of rfl (by cases a <;> rfl) (by decide) rfl (.inr (by simp [Instr.registers]))
    (.inl rfl)

theorem FieldsRoundTrip.read (ri : Nat) (a : Operand) : FieldsRoundTrip.Statement (.read ri a) :=
  fieldsRoundTrip_of rfl (by cases a <;> rfl) (by decide) rfl (.inr (by simp [Instr.registers]))
    (.inl rfl)

theorem FieldsRoundTrip.answer (a : Operand) : FieldsRoundTrip.Statement (.answer a) :=
  fieldsRoundTrip_of rfl (by cases a <;> rfl) (by decide) rfl (.inl rfl)
    (.inl rfl)

theorem FieldsRoundTrip.unassigned23 : FieldsRoundTrip.Statement .unassigned23 :=
  fieldsRoundTrip_of_unassigned rfl rfl

theorem FieldsRoundTrip.unassigned24 : FieldsRoundTrip.Statement .unassigned24 :=
  fieldsRoundTrip_of_unassigned rfl rfl

theorem FieldsRoundTrip.unassigned25 : FieldsRoundTrip.Statement .unassigned25 :=
  fieldsRoundTrip_of_unassigned rfl rfl

end Sys2Proof.Laws
end

