-- ==== Sys2Proof/Laws/Program.lean ====
section
/-!
SUPPORT. The loader, the initial state and the program's image, said once (10_state.md R40 to R43;
70_reset_and_hazards.md R202, R203).
-/

namespace Sys2Proof.Machine

/-- What the loader accepts, and the state it makes in each variant. -/
theorem load_eq_ok {c : Config} {p : List Instr} {m : List Byte} {x w : List (Word c.W)} {s : State}
    (h : load c p m x w = .ok s) :
    c.legal ∧ checkProgram c p = none ∧
      ((c.arch = .hv ∧ p.length ≤ 2 ^ c.W ∧ s = .initial c p [] x w) ∨
        (c.arch = .vn ∧ (imageBytes c p ++ m).length ≤ 2 ^ c.W ∧
          s = .initial c [] (Memory.writeBytes [] c.W 0 (imageBytes c p ++ m)) x w)) := by
  unfold load at h
  split at h
  case isFalse => cases h
  case isTrue hl =>
    split at h
    · cases h
    · next hc =>
      refine ⟨hl, hc, ?_⟩
      split at h
      · next ha =>
        split at h
        · next h2 => exact .inl ⟨ha, h2, (Except.ok.inj h).symm⟩
        · cases h
      · next ha =>
        split at h
        · next h2 => exact .inr ⟨ha, h2, (Except.ok.inj h).symm⟩
        · cases h

/-- The check of a program finds nothing exactly when every instruction is one of the machine. -/
theorem checkProgram_eq_none {c : Config} {p : List Instr} : checkProgram c p = none ↔ ∀ i ∈ p, i.wf c = true := by
  induction p with
  | nil => simp [checkProgram]
  | cons i p ih =>
    have h := checkOperands_eq_none c i.registers i.operandA
    rw [← wf_iff] at h
    unfold checkProgram
    split
    · next e he =>
      simp only [he, reduceCtorEq, false_iff] at h
      simp [h]
    · next he => simp [ih, h.1 he]

/-- Every register starts at 0 (10_state.md R40, R41). -/
theorem initial_uReg (c : Config) (p : List Instr) (m : Memory) (x w : List (Word c.W)) (n : Nat) :
    (State.initial c p m x w).uReg n = 0 := by
  change BitVec.toNat (((Vector.replicate c.K (0 : Word c.W))[n]?).getD 0) = 0
  rw [Vector.getElem?_replicate]
  split <;> rfl

/-- The image of `L` instructions is `L` double words (10_state.md R42). -/
theorem imageBytes_length (c : Config) (p : List Instr) : (imageBytes c p).length = p.length * c.DWB := by
  induction p with
  | nil => simp [imageBytes]
  | cons i p ih =>
    simp only [imageBytes, List.length_append, ih, encodeBytes, bytesOfBlock_length, List.length_cons]
    ring

/-- Instruction `n` lies in the double word `n` of the image (10_state.md R42). -/
theorem imageBytes_getD (c : Config) (p : List Instr) (m : List Byte) (n k : Nat) (i : Instr) (h : p[n]? = some i)
    (hk : k < c.DWB) : (imageBytes c p ++ m).getD (n * c.DWB + k) 0 = (encodeBytes c i).getD k 0 := by
  induction p generalizing n with
  | nil => simp at h
  | cons j p ih =>
    have hl : (encodeBytes c j).length = c.DWB := bytesOfBlock_length _ _
    rw [imageBytes, List.append_assoc]
    cases n with
    | zero =>
      obtain rfl : j = i := by simpa using h
      rw [Nat.zero_mul, Nat.zero_add, List.getD_append _ _ _ _ (by omega)]
    | succ n =>
      have hn : (n + 1) * c.DWB + k = (encodeBytes c j).length + (n * c.DWB + k) := by rw [hl]; ring
      rw [List.getD_append_right _ _ _ _ (by omega), hn, Nat.add_sub_cancel_left]
      exact ih n (by simpa using h)

/-! ## Runs -/

/-- The last of `n + 1` steps is one step from where `n` steps lead. -/
theorem stateAfter_succ (n : Nat) (s : State) :
    stateAfter (n + 1) s = (stateAfter n s).bind fun t => match step t with | .next u => some u | _ => none := by
  induction n generalizing s with
  | zero => cases h : step s <;> simp [stateAfter, h]
  | succ n ih =>
    rw [stateAfter]
    cases h : step s with
    | next t => simp only [ih t]; rw [stateAfter, h]
    | fault => simp [stateAfter, h]
    | refused => simp [stateAfter, h]

end Sys2Proof.Machine
end

