-- ==== Sys2Proof/Tests/Slice0.lean ====
section
/-!
SUPPORT. Tests. A theorem `test_…` checks the model against a value of the spec; a theorem `witness_<Name>` shows a state
and operands that meet the hypotheses of the statement `Obligations.<Name>`, with what the machine then does. Expected
values are those of 95_test_vectors.md or are worked out by hand from the rule named.
-/

namespace Sys2Proof.Machine.Slice0

/-! ## Small states -/

/-- A machine with `W = 8`, `K = 2`. -/
def tiny : Config where
  logWB := 0
  K := 2
  arch := .vn
  answerMode := .stall
  smulh := .twosComplement

/-- A machine with `W = 16`, `K = 5`: register fields of three bits, `K` no power of two. -/
def five : Config := { Config.table with K := 5 }

/-- A Harvard machine of the table's size. -/
def harvard : Config := { Config.table with arch := .hv }

/-- A machine of the parameters `c` at `pc = 20` with the flag `f`, `x` in register 1, `y` in the last register. -/
def machine (c : Config) (f : Bool) (x y : Nat) : State :=
  let s : State := State.initial c [] [] [] []
  let s1 : State := (s.setPc (BitVec.ofNat _ 20)).setFlag f
  let s2 : State := s1.setReg 1 (BitVec.ofNat _ x)
  s2.setReg (s2.cfg.K - 1) (BitVec.ofNat _ y)

/-- The table's machine. -/
def tab (f : Bool) (x y : Nat) : State := machine Config.table f x y

/-- The table's machine with the tapes `(1234, ABCD)` and `(0000)` (95_test_vectors.md section 3.8). -/
def withTapes : State := State.initial Config.table [] [] [0x1234, 0xABCD] [0]

/-- The table's machine with `12AB` in register 1 and `AB` at address 101. -/
def withMem : State :=
  let s : State := tab true 0x12AB 101
  s.setMem [(101, 0xAB)]

/-- An hv machine with a program of two instructions, at instruction `n`. -/
def hvAt (n : Nat) : State :=
  (State.initial harvard [.mov 2 (.imm 7), .answer (.reg 2)] [] [] []).setPc (BitVec.ofNat _ n)

/-- The machine after an answer, `mode` saying what it does then. -/
def afterAnswer (mode : AnswerMode) : State :=
  let c : Config := { harvard with answerMode := mode }
  let s : State := State.initial c [.answer (.imm 7)] [] [] []
  s.setAnswered (BitVec.ofNat _ 7)

/-- The next state of an outcome, `d` if there is none. -/
def nextOr (d : State) : Host.Outcome State Fault Refusal → State
  | .next t => t
  | _ => d

/-- Register `i`, the flag and `pc` after an instruction that completes. -/
def result (i : Nat) : Host.Outcome State Fault Refusal → Option (Nat × Bool × Nat)
  | .next t => some (t.uReg i, t.flag, t.uPc)
  | _ => none

/-- The bytes from address `a` up after an instruction that completes. -/
def bytesAfter (a n : Nat) : Host.Outcome State Fault Refusal → Option (List Nat)
  | .next t => some ((List.range n).map fun k => (t.byteAt (a + k)).toNat)
  | _ => none

/-- The return value after an instruction that completes, and `pc`. -/
def answerAfter : Host.Outcome State Fault Refusal → Option (Option Nat × Nat)
  | .next t => some (t.answered, t.uPc)
  | _ => none

/-- The reason of a refusal. -/
def refusal : Host.Outcome State Fault Refusal → Option Refusal
  | .refused r => some r
  | _ => none

/-! ## Ill-formed terms are refused (30_encoding.md R95, 10_state.md R24, 00_scope.md R8, R10) -/

theorem test_wf_refuses_ri : Instr.wf Config.table (.add 16 0 (.reg 0)) = false := by decide

theorem test_wf_refuses_rj : Instr.wf Config.table (.add 0 16 (.reg 0)) = false := by decide

theorem test_wf_refuses_A_register : Instr.wf Config.table (.jmp (.reg 16)) = false := by decide

theorem test_wf_refuses_A_immediate : Instr.wf Config.table (.jmp (.imm 65536)) = false := by decide

theorem test_wf_accepts_the_bounds : Instr.wf Config.table (.add 15 15 (.reg 15)) = true ∧
    Instr.wf Config.table (.storeB (.imm 65535) 15) = true := by decide

theorem test_wf_refuses_long_program : ¬ Program.wf tiny (List.replicate 257 (.jmp (.imm 0))) :=
  fun h => absurd h.1 (by rw [List.length_replicate]; decide)

theorem test_wf_refuses_bad_program : ¬ Program.wf harvard [.jmp (.imm 0), .not 16 (.imm 0)] := by decide

theorem test_legal_refuses : ¬ Config.legal { tiny with K := 0 } ∧ ¬ Config.legal { tiny with K := 3 } ∧
    Config.legal { tiny with K := 3, arch := .hv } := by decide

theorem test_step_refuses_illegal_parameters :
    refusal (step (State.initial { tiny with K := 3 } [] [] [] [])) = some .illegalParameters := by decide

set_option maxRecDepth 20000 in
theorem test_step_refuses_long_program :
    refusal (step (State.initial { tiny with arch := .hv } (List.replicate 257 (.jmp (.imm 0))) [] [] []))
      = some .programTooLong := by rfl

theorem test_step_refuses_immediate :
    refusal (step (State.initial harvard [.jmp (.imm 65536)] [] [] []))
      = some (.notAnInstruction (.immediateOutOfRange 65536)) := by decide

theorem test_decodeBytes_refuses_length : decodeBytes Config.table [0, 0, 0] = .error .wrongLength := by decide

theorem test_decode_refuses_no_encoding : decode { tiny with K := 3 } 0 = .error .noEncoding := by decide

/-! ## Decoding: each word written out field by field from 30_encoding.md R81, R89 and R91 -/

theorem test_decode_rra :
    decodeTableWord 32 0b00000_0_0101_1010_00_0000000000000011 = some (.and 5 10 (.reg 3)) ∧
    decodeTableWord 32 0b00001_1_0101_1010_00_1000000000000001 = some (.or 5 10 (.imm 0x8001)) ∧
    decodeTableWord 32 0b00010_0_0101_1010_00_0000000000001111 = some (.xor 5 10 (.reg 15)) ∧
    decodeTableWord 32 0b00100_1_0011_0111_00_0000010011010010 = some (.add 3 7 (.imm 1234)) ∧
    decodeTableWord 32 0b00101_0_0001_1000_00_0000000000000000 = some (.sub 1 8 (.reg 0)) ∧
    decodeTableWord 32 0b00110_1_1111_0000_00_1111111111111111 = some (.mull 15 0 (.imm 65535)) ∧
    decodeTableWord 32 0b00111_0_0000_1111_00_0000000000000100 = some (.umulh 0 15 (.reg 4)) ∧
    decodeTableWord 32 0b01000_1_0101_1010_00_0000000000000111 = some (.smulh 5 10 (.imm 7)) ∧
    decodeTableWord 32 0b01001_0_0101_1010_00_0000000000000111 = some (.udiv 5 10 (.reg 7)) ∧
    decodeTableWord 32 0b01010_1_0101_1010_00_0000000000000111 = some (.umod 5 10 (.imm 7)) ∧
    decodeTableWord 32 0b01011_0_0101_1010_00_0000000000000111 = some (.shl 5 10 (.reg 7)) ∧
    decodeTableWord 32 0b01100_1_0101_1010_00_0000000000000111 = some (.shr 5 10 (.imm 7)) := by decide

theorem test_decode_ra :
    decodeTableWord 32 0b00011_0_0101_0000_00_0000000000000011 = some (.not 5 (.reg 3)) ∧
    decodeTableWord 32 0b10010_1_0001_0000_00_1111111111111111 = some (.mov 1 (.imm 0xFFFF)) ∧
    decodeTableWord 32 0b10011_0_0101_0000_00_0000000000000011 = some (.cmov 5 (.reg 3)) ∧
    decodeTableWord 32 0b11011_1_0101_0000_00_0000000001100101 = some (.loadB 5 (.imm 101)) ∧
    decodeTableWord 32 0b11101_0_0101_0000_00_0000000000000011 = some (.loadW 5 (.reg 3)) ∧
    decodeTableWord 32 0b11110_1_0011_0000_00_0000000000000001 = some (.read 3 (.imm 1)) := by decide

theorem test_decode_ca :
    decodeTableWord 32 0b01101_1_0000_0100_00_0000000000000111 = some (.cmpe 4 (.imm 7)) ∧
    decodeTableWord 32 0b01110_0_0000_0101_00_0000000000000011 = some (.cmpa 5 (.reg 3)) ∧
    decodeTableWord 32 0b01111_1_0000_0101_00_0000000000000011 = some (.cmpae 5 (.imm 3)) ∧
    decodeTableWord 32 0b10000_0_0000_0101_00_0000000000000011 = some (.cmpg 5 (.reg 3)) ∧
    decodeTableWord 32 0b10001_1_0000_0101_00_0000000000000011 = some (.cmpge 5 (.imm 3)) := by decide

theorem test_decode_a :
    decodeTableWord 32 0b10100_1_0000_0000_00_0000000000001000 = some (.jmp (.imm 8)) ∧
    decodeTableWord 32 0b10101_1_0000_0000_00_0000000000011100 = some (.cjmp (.imm 28)) ∧
    decodeTableWord 32 0b10110_0_0000_0000_00_0000000000001001 = some (.cnjmp (.reg 9)) ∧
    decodeTableWord 32 0b11111_0_0000_0000_00_0000000000000010 = some (.answer (.reg 2)) := by decide

theorem test_decode_ar :
    decodeTableWord 32 0b11010_1_0101_0000_00_0000000001100101 = some (.storeB (.imm 101) 5) ∧
    decodeTableWord 32 0b11100_0_0001_0000_00_0000000000000000 = some (.storeW (.reg 0) 1) := by decide

theorem test_decode_unassigned :
    decodeTableWord 32 0b10111_0_0000_0000_00_0001001000110100 = some .unassigned23 ∧
    decodeTableWord 32 0b11000_0_0000_0000_00_0000000000000000 = some .unassigned24 ∧
    decodeTableWord 32 0b11001_1_1111_1111_11_1111111111111111 = some .unassigned25 := by decide

/-- 95_test_vectors.md section 2.3. -/
theorem test_decode_dont_care :
    decodeTableWord 32 0x24DF04D2 = some (.add 3 7 (.imm 1234)) ∧
    decodeTableWord 32 0x97FFFFFF = some (.mov 15 (.imm 0xFFFF)) ∧
    decodeTableWord 32 0xA7FF0008 = some (.jmp (.imm 8)) ∧
    decodeTableWord 32 0x6FC30007 = some (.cmpe 0 (.imm 7)) ∧
    decodeTableWord 32 0x00000000 = some (.and 0 0 (.reg 0)) ∧
    decodeTableWord 32 0x20DC0010 = none := by decide

/-- 95_test_vectors.md section 2.2. -/
theorem test_encode_other_parameters :
    encode { Config.table with K := 32 } (.add 3 7 (.imm 1234)) = 0x246704D2 ∧
    encode { Config.table with logWB := 2 } (.add 3 7 (.imm 1234)) = 0x24DC0000000004D2 ∧
    encode { Config.table with logWB := 3 } (.add 3 7 (.imm 1234)) = 0x24DC00000000000000000000000004D2 ∧
    encode tiny (.add 1 1 (.imm 18)) = 0x2712 ∧ encode tiny (.add 1 0 (.reg 1)) = 0x2201 := by decide

/-- The canonical encoding of an unassigned opcode is that of `answer 1`: `11111 1`, then zeros, then 1 (30_encoding.md R93,
R96). -/
theorem test_encode_unassigned :
    encode Config.table .unassigned23 = 0b11111_1_0000_0000_00_0000000000000001 ∧
    (decodeTableWord 32 0xB8000000).map (encode Config.table) = some 0xFC000001 ∧
    (decodeTableWord 32 0xCFFFFFFF).map (encode Config.table) = some 0xFC000001 := by decide

/-- 30_encoding.md R97: the bytes of the worked example in the order of their addresses. -/
theorem test_encodeBytes : encodeBytes Config.table (.add 3 7 (.imm 1234)) = [0xD2, 0x04, 0xDC, 0x24] := by decide

/-! ## Bit operations (95_test_vectors.md section 3.1) -/

theorem witness_AndStoresBitwiseAnd :
    OperandsOk (tab true 0xF0F0 0x0FF0).cfg [3, 1] (.reg 15) ∧
    result 3 (exec (.and 3 1 (.reg 15)) (tab true 0xF0F0 0x0FF0)) = some (0x00F0, false, 24) ∧
    result 1 (exec (.and 1 1 (.imm 0x0F0F)) (tab false 0xF0F0 0)) = some (0, true, 24) := by decide

theorem witness_OrStoresBitwiseOr :
    OperandsOk (tab true 0x8000 1).cfg [3, 1] (.reg 15) ∧
    result 3 (exec (.or 3 1 (.reg 15)) (tab true 0x8000 1)) = some (0x8001, false, 24) ∧
    result 3 (exec (.or 3 1 (.imm 0)) (tab false 0 1)) = some (0, true, 24) := by decide

theorem witness_XorStoresBitwiseXor :
    OperandsOk (tab true 0xAAAA 0x5555).cfg [15, 1] (.reg 15) ∧
    result 15 (exec (.xor 15 1 (.reg 15)) (tab true 0xAAAA 0x5555)) = some (0xFFFF, false, 24) ∧
    result 3 (exec (.xor 3 1 (.reg 1)) (tab false 0xAAAA 0)) = some (0, true, 24) := by decide

theorem witness_NotStoresComplement :
    OperandsOk (tab false 0 0).cfg [15] (.imm 0x00FF) ∧
    result 15 (exec (.not 15 (.imm 0x00FF)) (tab true 0 0)) = some (0xFF00, false, 24) ∧
    result 15 (exec (.not 15 (.imm 0xFFFF)) (tab false 0 0)) = some (0, true, 24) := by decide

/-! ## Integer operations (95_test_vectors.md section 3.2; `W = 8` for overflow at another width) -/

theorem witness_AddStoresSumAndCarry :
    OperandsOk (tab false 0xFFFF 1).cfg [3, 1] (.reg 15) ∧
    result 3 (exec (.add 3 1 (.reg 15)) (tab false 0xFFFF 1)) = some (0, true, 24) ∧
    result 3 (exec (.add 3 1 (.reg 15)) (tab true 0x7FFF 1)) = some (0x8000, false, 24) := by decide

/-- `pc` advances by `DWB = 2` when `W = 8` (00_scope.md R11). -/
theorem test_add_width8 : result 0 (exec (.add 0 1 (.imm 1)) (machine tiny false 0 0xFF)) = some (0, true, 22) := by
  decide

theorem witness_SubStoresDifferenceAndBorrow :
    OperandsOk (tab false 0 1).cfg [3, 1] (.reg 15) ∧
    result 3 (exec (.sub 3 1 (.reg 15)) (tab false 3 0xFFFF)) = some (4, true, 24) ∧
    result 3 (exec (.sub 3 1 (.imm 5)) (tab true 5 0)) = some (0, false, 24) := by decide

theorem witness_MullStoresLowProduct :
    OperandsOk (tab false 0x0100 0x0100).cfg [3, 1] (.reg 15) ∧
    result 3 (exec (.mull 3 1 (.reg 15)) (tab false 0x0100 0x0100)) = some (0, true, 24) ∧
    result 3 (exec (.mull 3 1 (.reg 15)) (tab true 0x00FF 0x0101)) = some (0xFFFF, false, 24) := by decide

theorem witness_UmulhStoresHighProduct :
    OperandsOk (tab false 0xFFFF 0xFFFF).cfg [3, 1] (.reg 15) ∧
    result 3 (exec (.umulh 3 1 (.reg 15)) (tab false 0xFFFF 0xFFFF)) = some (0xFFFE, true, 24) ∧
    result 3 (exec (.umulh 3 1 (.reg 15)) (tab true 0x00FF 0x0101)) = some (0, false, 24) := by decide

/-- 95_test_vectors.md section 4. -/
theorem witness_SmulhLiteralStoresSignAndMagnitude :
    (tab false 0x8000 2).cfg.smulh = .literal ∧ OperandsOk (tab false 0x8000 2).cfg [3, 1] (.reg 15) ∧
    result 3 (exec (.smulh 3 1 (.reg 15)) (tab false 0x8000 2)) = some (0x8001, true, 24) ∧
    result 3 (exec (.smulh 3 1 (.reg 15)) (tab true 0xFFFF 1)) = some (0x8000, false, 24) ∧
    result 3 (exec (.smulh 3 1 (.reg 15)) (tab false 0x8000 0x8000)) = some (0x4000, true, 24) := by decide

/-- 95_test_vectors.md section 4, rows with `W = 8`. -/
theorem witness_SmulhTwosComplementStoresHighProduct :
    (machine tiny false 0 0x80).cfg.smulh = .twosComplement ∧
    OperandsOk (machine tiny false 0 0x80).cfg [0, 1] (.imm 0x7F) ∧
    result 0 (exec (.smulh 0 1 (.imm 0x7F)) (machine tiny false 0 0x80)) = some (0xC0, true, 22) ∧
    result 0 (exec (.smulh 0 1 (.imm 1)) (machine tiny true 0 0xFF)) = some (0xFF, false, 22) := by decide

theorem witness_UdivStoresQuotient :
    OperandsOk (tab false 7 0).cfg [3, 1] (.imm 2) ∧ (tab true 7 0).uA (.imm 2) ≠ 0 ∧
    result 3 (exec (.udiv 3 1 (.imm 2)) (tab true 7 0)) = some (3, false, 24) ∧ (tab false 7 0).uA (.reg 15) = 0 ∧
    result 3 (exec (.udiv 3 1 (.reg 15)) (tab false 7 0)) = some (0, true, 24) := by decide

theorem witness_UmodStoresRemainder :
    OperandsOk (tab false 7 0).cfg [3, 1] (.imm 2) ∧ (tab true 7 0).uA (.imm 2) ≠ 0 ∧
    result 3 (exec (.umod 3 1 (.imm 2)) (tab true 7 0)) = some (1, false, 24) ∧ (tab false 7 0).uA (.reg 15) = 0 ∧
    result 3 (exec (.umod 3 1 (.reg 15)) (tab false 7 0)) = some (0, true, 24) := by decide

theorem witness_MullAndUmulhMakeTheProduct :
    OperandsOk (tab false 0xFFFF 0xFFFF).cfg [1, 1] (.reg 15) ∧
    result 1 (exec (.mull 1 1 (.reg 15)) (tab false 0xFFFF 0xFFFF)) = some (1, true, 24) ∧
    result 1 (exec (.umulh 1 1 (.reg 15)) (tab false 0xFFFF 0xFFFF)) = some (0xFFFE, true, 24) := by decide

/-! ## Shifts (95_test_vectors.md section 3.3): amounts 1, `W − 1`, `W` and 0 -/

theorem witness_ShlShiftsLeft :
    OperandsOk (tab false 0x8001 1).cfg [3, 1] (.reg 15) ∧
    result 3 (exec (.shl 3 1 (.reg 15)) (tab false 0x8001 1)) = some (2, true, 24) ∧
    result 3 (exec (.shl 3 1 (.imm 15)) (tab true 1 0)) = some (0x8000, false, 24) ∧
    result 3 (exec (.shl 3 1 (.imm 16)) (tab true 1 0)) = some (0, false, 24) := by decide

theorem witness_ShrShiftsRight :
    OperandsOk (tab false 0x8001 1).cfg [3, 1] (.reg 15) ∧
    result 3 (exec (.shr 3 1 (.reg 15)) (tab false 0x8001 1)) = some (0x4000, true, 24) ∧
    result 3 (exec (.shr 3 1 (.imm 15)) (tab true 0x8000 0)) = some (1, false, 24) ∧
    result 3 (exec (.shr 3 1 (.imm 16)) (tab true 0x8000 0)) = some (0, false, 24) := by decide

/-! ## Compares (95_test_vectors.md section 3.4) -/

theorem witness_CmpeComparesEqual :
    OperandsOk (tab false 5 5).cfg [1] (.reg 15) ∧
    result 1 (exec (.cmpe 1 (.reg 15)) (tab false 5 5)) = some (5, true, 24) ∧
    result 1 (exec (.cmpe 1 (.imm 1)) (tab true 0xFFFF 5)) = some (0xFFFF, false, 24) := by decide

/-- Equal operands, and `0x8000` against `0x7FFF`. -/
theorem witness_UnsignedComparesSetFlag :
    OperandsOk (tab true 5 5).cfg [1] (.reg 15) ∧
    result 1 (exec (.cmpa 1 (.reg 15)) (tab true 5 5)) = some (5, false, 24) ∧
    result 1 (exec (.cmpae 1 (.reg 15)) (tab false 5 5)) = some (5, true, 24) ∧
    result 1 (exec (.cmpa 1 (.imm 0x7FFF)) (tab false 0x8000 5)) = some (0x8000, true, 24) ∧
    result 1 (exec (.cmpae 1 (.imm 0x8000)) (tab true 0x7FFF 5)) = some (0x7FFF, false, 24) := by decide

theorem witness_SignedComparesSetFlag :
    OperandsOk (tab true 5 5).cfg [1] (.reg 15) ∧
    result 1 (exec (.cmpg 1 (.reg 15)) (tab true 5 5)) = some (5, false, 24) ∧
    result 1 (exec (.cmpge 1 (.reg 15)) (tab false 5 5)) = some (5, true, 24) ∧
    result 1 (exec (.cmpg 1 (.imm 0x8000)) (tab false 0x7FFF 5)) = some (0x7FFF, true, 24) ∧
    result 1 (exec (.cmpge 1 (.imm 0x7FFF)) (tab true 0x8000 5)) = some (0x8000, false, 24) := by decide

/-! ## Moves and jumps (95_test_vectors.md sections 3.5 and 3.6) -/

theorem witness_MovStoresOperand :
    OperandsOk (tab true 0x1111 0x2222).cfg [1] (.imm 4660) ∧
    result 1 (exec (.mov 1 (.imm 4660)) (tab true 0x1111 0x2222)) = some (0x1234, true, 24) ∧
    result 1 (exec (.mov 1 (.reg 15)) (tab false 0x1111 0x2222)) = some (0x2222, false, 24) := by decide

theorem witness_CmovStoresIfFlag :
    OperandsOk (tab true 0x1111 0).cfg [1] (.imm 4660) ∧
    result 1 (exec (.cmov 1 (.imm 4660)) (tab true 0x1111 0)) = some (0x1234, true, 24) ∧
    result 1 (exec (.cmov 1 (.imm 4660)) (tab false 0x1111 0)) = some (0x1111, false, 24) := by decide

theorem witness_JmpStoresInPc :
    OperandsOk (tab true 3 0).cfg [] (.imm 65535) ∧
    result 1 (exec (.jmp (.imm 65535)) (tab true 3 0)) = some (3, true, 65535) ∧
    result 1 (exec (.jmp (.reg 1)) (tab false 3 0)) = some (3, false, 3) := by decide

theorem witness_CjmpJumpsIfFlag :
    OperandsOk (tab true 0 0).cfg [] (.imm 28) ∧
    result 1 (exec (.cjmp (.imm 28)) (tab true 3 0)) = some (3, true, 28) ∧
    result 1 (exec (.cjmp (.imm 28)) (tab false 3 0)) = some (3, false, 24) := by decide

theorem witness_CnjmpJumpsUnlessFlag :
    OperandsOk (tab true 0 0).cfg [] (.imm 28) ∧
    result 1 (exec (.cnjmp (.imm 28)) (tab false 3 0)) = some (3, false, 28) ∧
    result 1 (exec (.cnjmp (.imm 28)) (tab true 3 0)) = some (3, true, 24) := by decide

/-- In hv `pc` advances by 1 and wraps past `2^W − 1` (10_state.md R23). -/
theorem test_pc_wraps :
    result 1 (exec (.mov 1 (.imm 0)) ((machine harvard true 0 0).setPc (BitVec.ofNat _ 0xFFFF))) = some (0, true, 0) := by
  decide

/-! ## Memory operations (95_test_vectors.md section 3.7) -/

theorem witness_StoreByteWritesOneByte :
    OperandsOk withMem.cfg [1] (.imm 65535) ∧
    bytesAfter 100 3 (exec (.storeB (.imm 101) 1) (tab true 0x12AB 0)) = some [0, 0xAB, 0] ∧
    bytesAfter 65534 3 (exec (.storeB (.imm 65535) 1) (tab true 0x12AB 0)) = some [0, 0xAB, 0] := by decide

theorem witness_LoadByteZeroExtends :
    OperandsOk withMem.cfg [2] (.reg 15) ∧ result 2 (exec (.loadB 2 (.reg 15)) withMem) = some (0x00AB, true, 24) := by
  decide

theorem witness_StoreWordWritesAlignedWord :
    OperandsOk (tab true 0xBEEF 101).cfg [1] (.reg 15) ∧
    bytesAfter 99 4 (exec (.storeW (.reg 15) 1) (tab true 0x1234 101)) = some [0, 0x34, 0x12, 0] ∧
    bytesAfter 65534 2 (exec (.storeW (.imm 65535) 1) (tab true 0xBEEF 0)) = some [0xEF, 0xBE] ∧
    bytesAfter 0 1 (exec (.storeW (.imm 65535) 1) (tab true 0xBEEF 0)) = some [0] := by decide

/-- The aligned word that holds address 101: `Mem[100] = 00`, `Mem[101] = AB`. -/
theorem witness_LoadWordReadsAlignedWord :
    OperandsOk withMem.cfg [3] (.imm 101) ∧ result 3 (exec (.loadW 3 (.imm 101)) withMem) = some (0xAB00, true, 24) ∧
    result 3 (exec (.loadW 3 (.imm 65535)) withMem) = some (0, true, 24) := by decide

/-- No byte, one byte at the top, and as many bytes as there are addresses. -/
theorem witness_MemWriteWritesItsBytesOnly :
    0 ≤ 2 ^ 3 ∧ 8 ≤ 2 ^ 3 ∧ memWrite [(5, 1)] 3 0 0 0 = [(5, 1)] ∧ memWrite [(5, 1)] 3 15 1 9 = [(5, 1), (7, 9)] ∧
    memWrite [(5, 1)] 3 7 8 0x0807060504030201 = [(0, 2), (1, 3), (2, 4), (3, 5), (4, 6), (5, 7), (6, 8), (7, 1)] ∧
    memWrite [(5, 1)] 3 5 1 0 = [] := by decide

theorem witness_LoadByteReadsStoredWord :
    OperandsOk (tab true 0x1234 101).cfg [1] (.reg 15) ∧ 15 < (tab true 0x1234 101).cfg.K ∧
    1 < (tab true 0x1234 101).cfg.WB ∧
    (let t := nextOr (tab true 0 0) (exec (.storeW (.reg 15) 1) (tab true 0x1234 101))
     result 15 (exec (.loadB 15 (.imm 101)) t) = some (0x12, true, 28)) := by decide

/-! ## Input (95_test_vectors.md section 3.8), answer and unassigned opcodes (section 3.9) -/

/-- A tape with words, a tape that is exhausted, a tape number of 2, and the largest. -/
theorem witness_ReadConsumesNextWord :
    OperandsOk withTapes.cfg [1] (.imm 0) ∧ result 1 (exec (.read 1 (.imm 0)) withTapes) = some (0x1234, false, 4) ∧
    (nextOr withTapes (exec (.read 1 (.imm 0)) withTapes)).uTape 0 = [0xABCD] ∧
    result 1 (exec (.read 1 (.reg 15)) (tab false 9 0)) = some (0, true, 24) ∧
    2 ≤ withTapes.uA (.imm 2) ∧ result 1 (exec (.read 1 (.imm 2)) withTapes) = some (0, true, 4) ∧
    result 1 (exec (.read 1 (.imm 65535)) withTapes) = some (0, true, 4) := by decide

/-- A zero word on tape 1 differs from the end of the tape by the flag. -/
theorem test_read_zero_word : result 2 (exec (.read 2 (.imm 1)) withTapes) = some (0, false, 4) ∧
    (nextOr withTapes (exec (.read 2 (.imm 1)) withTapes)).uTape 1 = [] := by decide

theorem witness_AnswerReturnsOperand :
    OperandsOk (tab true 7 0).cfg [] (.reg 1) ∧ answerAfter (exec (.answer (.reg 1)) (tab true 7 0)) = some (some 7, 20) ∧
    answerAfter (exec (.answer (.imm 65535)) (tab true 7 0)) = some (some 65535, 20) := by decide

theorem witness_UnassignedOpcodesAnswerOne :
    (fieldsOf Config.table 0xB8001234).opcode = 23 ∧ (fieldsOf Config.table 0xC0000000).opcode = 24 ∧
    (fieldsOf Config.table 0xCFFFFFFF).opcode = 25 ∧
    Instr.unassigned24 ∈ [Instr.unassigned23, Instr.unassigned24, Instr.unassigned25] ∧
    answerAfter (exec .unassigned23 (tab true 7 0)) = some (some 1, 20) ∧
    answerAfter (exec .unassigned24 (tab true 7 0)) = some (some 1, 20) ∧
    answerAfter (exec .unassigned25 (tab true 7 0)) = some (some 1, 20) := by decide

/-- Register `K`, in a register field and as operand `A`, whatever the flag is. -/
theorem witness_OutOfRangeRegisterIsRefused :
    (tab false 0 0).cfg.K ≤ 16 ∧ 16 ∈ (Instr.add 16 1 (.imm 0)).registers ∧
    (Instr.cmov 1 (.reg 16)).operandA = .reg 16 ∧
    refusal (exec (.add 16 1 (.imm 0)) (tab false 0 0)) = some (.notAnInstruction (.registerOutOfRange 16)) ∧
    refusal (exec (.cmov 1 (.reg 16)) (tab false 0 0)) = some (.notAnInstruction (.registerOutOfRange 16)) := by decide

theorem witness_EveryInstructionCompletes :
    Instr.wf (tab true 0 0).cfg (.storeB (.reg 15) 15) = true ∧ Instr.wf (tab true 0 0).cfg .unassigned23 = true := by
  decide

/-! ## Every instruction's effects -/

theorem witness_PcAdvancesUnlessJumpOrAnswer :
    Instr.wf (tab true 0 0).cfg (.cjmp (.imm 28)) = true ∧ pcAfter (tab true 0 0) (.cjmp (.imm 28)) = 28 ∧
    pcAfter (tab true 0 0) (.answer (.imm 0)) = 20 ∧ (tab true 0 0).cfg.arch = .vn ∧
    pcAfter (tab true 0 0) (.mov 0 (.imm 0)) = 24 ∧ (hvAt 0).cfg.arch = .hv ∧
    Instr.wf (hvAt 0).cfg (.mov 0 (.imm 0)) = true ∧ pcAfter (hvAt 0) (.mov 0 (.imm 0)) = 1 := by decide

/-- A store: a register, a tape, the flag and the bytes beside the stored word are blank in the table. -/
theorem witness_EffectsAreThoseOfTheTable :
    exec (.storeW (.imm 101) 1) withMem = .next (nextOr withMem (exec (.storeW (.imm 101) 1) withMem)) ∧
    destination (.storeW (.imm 101) 1) ≠ some 1 ∧ writesFlag (.storeW (.imm 101) 1) = false ∧
    storedBytes withMem (.storeW (.imm 101) 1) = some (100, 2) ∧ (99 < 100 ∨ 100 + 2 ≤ 99) ∧ (102 < 100 ∨ 100 + 2 ≤ 102) ∧
    tapeRead withMem (.storeW (.imm 101) 1) ≠ some 0 ∧ answerValue withMem (.storeW (.imm 101) 1) = none :=
  ⟨rfl, by decide⟩

theorem witness_FlagIsReadByThreeInstructions :
    readsFlag (.mov 1 (.reg 15)) = false ∧
    exec (.mov 1 (.reg 15)) (tab true 1 2) = .next (nextOr (tab true 0 0) (exec (.mov 1 (.reg 15)) (tab true 1 2))) :=
  ⟨rfl, rfl⟩

theorem witness_PcIsNotObservable :
    exec (.storeW (.reg 15) 1) (tab true 1 2)
      = .next (nextOr (tab true 0 0) (exec (.storeW (.reg 15) 1) (tab true 1 2))) := rfl

/-! ## Encoding -/

theorem witness_DecodeAfterEncode :
    Config.table.encodable ∧ Instr.wf Config.table (.storeW (.imm 65535) 15) = true ∧
    encode Config.table (.storeW (.imm 65535) 15) = 0xE7C0FFFF ∧
    Instr.isUnassigned (.storeW (.imm 65535) 15) = false ∧ tiny.encodable ∧ Instr.wf tiny .unassigned25 = true ∧
    Instr.isUnassigned .unassigned25 = true ∧ encode tiny .unassigned25 = 0xFC01 := by decide

/-- Two strings that agree below their width agree. -/
theorem agree_of_lt {w : Nat} {e e' : BitVec w} {p : Nat → Prop} (h : ∀ k, k < w → ¬ p k → e.getLsbD k = e'.getLsbD k) :
    ∀ k, ¬ p k → e.getLsbD k = e'.getLsbD k := fun k hk => by
  by_cases hw : k < w
  · exact h k hw hk
  · rw [BitVec.getLsbD_of_ge _ _ (by omega), BitVec.getLsbD_of_ge _ _ (by omega)]

theorem witness_PackAfterFields :
    Config.table.encodable ∧
    (∀ k, k < 18 → Config.table.W ≤ k → k < Config.table.W + Config.table.PAD →
      (0xFFFCFFFF : BitVec Config.table.EW).getLsbD k = false) ∧
    pack Config.table (fieldsOf Config.table 0xFFFCFFFF) = 0xFFFCFFFF := by decide

theorem witness_DecodeIgnoresDontCareBits_padding :
    (fieldsOf Config.table 0x24DC04D2).opcode = (fieldsOf Config.table 0x24DF04D2).opcode ∧
    ∀ k, ¬ (Config.table.W ≤ k ∧ k < Config.table.W + Config.table.PAD) →
      (0x24DC04D2 : BitVec Config.table.EW).getLsbD k = (0x24DF04D2 : BitVec Config.table.EW).getLsbD k :=
  ⟨by decide, agree_of_lt (by decide)⟩

theorem witness_DecodeIgnoresDontCareBits_ra :
    (fieldsOf Config.table 0x97FFFFFF).opcode = (fieldsOf Config.table 0x97C0FFFF).opcode ∧
    (fieldsOf Config.table 0x97FFFFFF).opcode ∈ [3, 18, 19, 26, 27, 28, 29, 30] ∧
    ∀ k, ¬ (Config.table.W ≤ k ∧ k < Config.table.W + Config.table.PAD + Config.table.KB) →
      (0x97FFFFFF : BitVec Config.table.EW).getLsbD k = (0x97C0FFFF : BitVec Config.table.EW).getLsbD k :=
  ⟨by decide, by decide, agree_of_lt (by decide)⟩

theorem witness_DecodeIgnoresDontCareBits_ca :
    (fieldsOf Config.table 0x6FC30007).opcode = (fieldsOf Config.table 0x6C030007).opcode ∧
    (fieldsOf Config.table 0x6FC30007).opcode ∈ [13, 14, 15, 16, 17] ∧
    ∀ k, ¬ (Config.table.W + Config.table.PAD + Config.table.KB ≤ k ∧
        k < Config.table.W + Config.table.PAD + 2 * Config.table.KB) →
      (0x6FC30007 : BitVec Config.table.EW).getLsbD k = (0x6C030007 : BitVec Config.table.EW).getLsbD k :=
  ⟨by decide, by decide, agree_of_lt (by decide)⟩

theorem witness_DecodeIgnoresDontCareBits_a :
    (fieldsOf Config.table 0xA7FF0008).opcode = (fieldsOf Config.table 0xA4000008).opcode ∧
    (fieldsOf Config.table 0xA7FF0008).opcode ∈ [20, 21, 22, 31] ∧
    ∀ k, ¬ (Config.table.W ≤ k ∧ k < Config.table.W + Config.table.PAD + 2 * Config.table.KB) →
      (0xA7FF0008 : BitVec Config.table.EW).getLsbD k = (0xA4000008 : BitVec Config.table.EW).getLsbD k :=
  ⟨by decide, by decide, agree_of_lt (by decide)⟩

theorem witness_DecodeIgnoresDontCareBits_unassigned :
    (fieldsOf Config.table 0xCFFFFFFF).opcode = (fieldsOf Config.table 0xC8000000).opcode ∧
    (fieldsOf Config.table 0xCFFFFFFF).opcode ∈ [23, 24, 25] := by decide

/-- A word with the `imm` bit where `K` is a power of two; a word of a machine with five registers that names register 5
in field #3 (`add r5, r0, 0`). -/
theorem witness_DecoderIsTotalButForRegisters :
    Config.table.encodable ∧ Config.table.K = 2 ^ 4 ∧
    (0xFFFFFFFF : BitVec Config.table.EW).getLsbD (2 * Config.table.W - 6) = true ∧
    decode Config.table 0xFFFFFFFF = .ok (.answer (.imm 65535)) ∧
    five.encodable ∧ decode five 0b00100_1_101_000_0000_0000000000000000 = .error (.registerOutOfRange 5) := by decide

theorem witness_EncodedInstructionLiesLittleEndian :
    Config.table.encodable ∧ Instr.wf Config.table (.add 3 7 (.imm 1234)) = true ∧
    1 < Config.table.WB ∧ encodeBytes Config.table (.add 3 7 (.imm 1234)) = [0xD2, 0x04, 0xDC, 0x24] := by decide

theorem witness_SpecWordsDecode : tiny.encodable ∧ 1 ≤ tiny.K ∧ decode tiny 0 = .ok (.and 0 0 (.reg 0)) := by decide

/-! ## Fetch and step -/

/-- `add r3, r7, 1234` placed where a step fetches right after reset. -/
def addAtReset : State := State.reset.withFetchWord 32 0x24DC04D2

/-- The same word, fetched at a `pc` that is no multiple of `DWB` (10_state.md R29). -/
def addMisaligned : State := addAtReset.setPc (BitVec.ofNat _ 3)

theorem test_first_step_after_reset :
    result 3 (step addAtReset) = some (1234, false, 4) ∧ (nextOr addAtReset (step addAtReset)).steps = 1 := by decide

theorem witness_StepRunsDecodedInstruction :
    hasHalted addMisaligned = false ∧ addMisaligned.cfg.legal ∧ addMisaligned.cfg.arch = .vn ∧
    decodeBytes addMisaligned.cfg ((List.range addMisaligned.cfg.DWB).map fun k =>
      addMisaligned.byteAt (addMisaligned.uPc / addMisaligned.cfg.DWB * addMisaligned.cfg.DWB + k))
        = .ok (.add 3 7 (.imm 1234)) ∧
    result 3 (step addMisaligned) = some (1234, false, 7) := by decide

/-- The last instruction of the program, and the first number past it (95_test_vectors.md section 5, P5). -/
theorem witness_HvRunsProgramThenAnswersOne :
    hasHalted (hvAt 1) = false ∧ (hvAt 1).cfg.legal ∧ (hvAt 1).cfg.arch = .hv ∧ Program.wf (hvAt 1).cfg (hvAt 1).prog ∧
    (hvAt 1).prog[(hvAt 1).uPc]? = some (.answer (.reg 2)) ∧ answerAfter (step (hvAt 1)) = some (some 0, 1) ∧
    hasHalted (hvAt 2) = false ∧ (hvAt 2).cfg.legal ∧ (hvAt 2).cfg.arch = .hv ∧ Program.wf (hvAt 2).cfg (hvAt 2).prog ∧
    (hvAt 2).prog.length ≤ (hvAt 2).uPc ∧ answerAfter (step (hvAt 2)) = some (some 1, 2) := by decide

theorem witness_FetchSeesMemoryAsItIs :
    addAtReset.cfg.legal ∧ addAtReset.cfg.arch = .vn ∧ Instr.wf addAtReset.cfg (.add 3 7 (.imm 1234)) = true ∧
    (∀ k, k < addAtReset.cfg.DWB → addAtReset.byteAt (addAtReset.uPc / addAtReset.cfg.DWB * addAtReset.cfg.DWB + k)
      = (encodeBytes addAtReset.cfg (.add 3 7 (.imm 1234))).getD k 0) ∧
    fetch addAtReset = .ok (.add 3 7 (.imm 1234)) := by decide

/-- The same with `pc = 3`, which is rounded down to 0. -/
theorem witness_FetchSeesMemoryAsItIs_misaligned :
    addMisaligned.cfg.legal ∧ addMisaligned.cfg.arch = .vn ∧ addMisaligned.uPc = 3 ∧
    Instr.wf addMisaligned.cfg (.add 3 7 (.imm 1234)) = true ∧
    (∀ k, k < addMisaligned.cfg.DWB →
      addMisaligned.byteAt (addMisaligned.uPc / addMisaligned.cfg.DWB * addMisaligned.cfg.DWB + k)
        = (encodeBytes addMisaligned.cfg (.add 3 7 (.imm 1234))).getD k 0) ∧
    fetch addMisaligned = .ok (.add 3 7 (.imm 1234)) := by decide

/-- A state that goes on, and one whose word names register 16. -/
theorem witness_WellFormedMachineGoesOn :
    addAtReset.wf ∧ hasHalted addAtReset = false ∧ (State.reset.withFetchWord 32 0x20DC0010).wf ∧
    hasHalted (State.reset.withFetchWord 32 0x20DC0010) = false ∧
    refusal (step (State.reset.withFetchWord 32 0x20DC0010)) = some (.notAnInstruction (.registerOutOfRange 16)) := by
  decide

/-- A step that stores: `store.w 101, r0` with `x[0] = 1234`. -/
theorem witness_StepKeepsStateWellFormed :
    let s : State := (State.reset.withFetchWord 32 0xE4000065).setReg 0 (BitVec.ofNat _ 0x1234)
    s.wf ∧ step s = .next (nextOr s (step s)) ∧ bytesAfter 100 2 (step s) = some [0x34, 0x12] :=
  ⟨by decide, rfl, by decide⟩

theorem witness_StepKeepsProgramAndParameters :
    step addAtReset = .next (nextOr addAtReset (step addAtReset)) := rfl

/-! ## Initial states, the loader and the assembler -/

theorem witness_HvInitialStateIsZero :
    harvard.arch = .hv ∧ load harvard [.answer (.imm 0)] [] [0x1234] [9]
      = .ok (State.initial harvard [.answer (.imm 0)] [] [0x1234] [9]) := ⟨rfl, rfl⟩

/-- 95_test_vectors.md section 5, P6: two instructions and a double word of data. -/
theorem witness_VnInitialStateHoldsTheImage :
    let p : List Instr := [.jmp (.imm 10), .answer (.imm 0)]
    Config.table.arch = .vn ∧ imageBytes Config.table p ++ [0x34, 0x12, 0x00, 0xB8]
      = [0x0A, 0x00, 0x00, 0xA4, 0x00, 0x00, 0x00, 0xFC, 0x34, 0x12, 0x00, 0xB8] ∧
    load Config.table p [0x34, 0x12, 0x00, 0xB8] [] []
      = .ok (State.initial Config.table []
          [(0, 0x0A), (3, 0xA4), (7, 0xFC), (8, 0x34), (9, 0x12), (11, 0xB8)] [] []) := ⟨rfl, by decide, rfl⟩

theorem witness_LoadedProgramIsFetched :
    let p : List Instr := [.jmp (.imm 10), .answer (.imm 0)]
    load Config.table p [] [] []
      = .ok (State.initial Config.table [] [(0, 0x0A), (3, 0xA4), (7, 0xFC)] [] []) ∧
    p[1]? = some (.answer (.imm 0)) ∧ instrNumber Config.table 1 = 4 := ⟨rfl, rfl, rfl⟩

set_option maxRecDepth 20000 in
/-- 95_test_vectors.md section 5, the start of P1, with labels, comments and both kinds of operand. -/
theorem witness_AssembledTextIsAProgram :
    assemble .halt .literal
      ("; TinyRAM V=2.000 M=vn W=16 K=16\n_loop: read r1, 0 ; next\r\n\tcjmp _done\n jmp _loop\n" ++
        "_done:\n store.w 32768 , r0\n mov r1,-1").toList
      = .ok (Config.table, [.read 1 (.imm 0), .cjmp (.imm 12), .jmp (.imm 0), .storeW (.imm 32768) 0,
          .mov 1 (.imm 65535)]) := by rfl

/-- The header alone names the machine: hv, `W = 32`, `K = 5` (30_encoding.md R100). -/
theorem test_header : (assemble .stall .twosComplement "; TinyRAM V=2.000 M=hv W=32 K=5".toList).map
    (fun r => (r.1.arch, r.1.W, r.1.K, r.2)) = .ok (.hv, 32, 5, []) := by decide

theorem test_assembler_refuses :
    assemble .halt .literal "; TinyRAM V=2.000 M=hv W=16 K=16\nmov r16, 1".toList = .error (.register 16) ∧
    assemble .halt .literal "; TinyRAM V=2.000 M=hv W=16 K=16\njmp _a\n_a:".toList
      = .error (.labelUndefined "_a".toList) ∧
    assemble .halt .literal "; TinyRAM V=2.000 M=hv W=12 K=16\n".toList = .error .header := by decide

/-- 95_test_vectors.md section 1.4: the preamble's encodings are those of P1. -/
theorem test_preamble :
    (preamble Config.table).map (encode Config.table) = [0xE4000000, 0x94008000, 0xF4400000, 0xAC00001C, 0x24000002,
      0xE0400000, 0xA4000008, 0xE4008000] ∧
    isProper Config.table (preamble Config.table ++ [.answer (.imm 0)]) = true ∧
    isProper Config.table [.answer (.imm 0)] = false := by decide

/-! ## The end of a run -/

theorem witness_OnlyAnswerEndsARun :
    step (hvAt 1) = .next (nextOr (hvAt 1) (step (hvAt 1))) ∧ (hvAt 1).answersNow = some 0 ∧
    step (hvAt 0) = .next (nextOr (hvAt 0) (step (hvAt 0))) ∧ (hvAt 0).answersNow = none := ⟨rfl, rfl, rfl, rfl⟩

/-- A run that has ended, on a machine that stalls. -/
theorem witness_StepKeepsRestingAtAnswer :
    (afterAnswer .stall).restsAtAnswer ∧
    step (afterAnswer .stall) = .next (nextOr (afterAnswer .stall) (step (afterAnswer .stall))) :=
  ⟨fun v h => by rw [← h]; decide, rfl⟩

theorem witness_AnsweredMachineStandsStill :
    (afterAnswer .halt).answered = some 7 ∧ (afterAnswer .halt).restsAtAnswer ∧
    (afterAnswer .halt).cfg.answerMode = .halt ∧ step (afterAnswer .halt) = .fault .halted ∧
    (afterAnswer .stall).answered = some 7 ∧ (afterAnswer .stall).restsAtAnswer ∧
    (afterAnswer .stall).cfg.answerMode = .stall :=
  ⟨rfl, fun v h => by rw [← h]; decide, rfl, rfl, rfl, fun v h => by rw [← h]; decide, rfl⟩

/-- 95_test_vectors.md section 3.9: `mov r2, 7` and `answer r2` answer 7 in step 2. -/
theorem witness_AcceptanceDependsOnFirstAnswer :
    (hvAt 0).answered = none ∧ FirstAnswer (hvAt 0) 2 7 ∧ (hvAt 0).cfg.answerMode = .halt := by
  refine ⟨rfl, ⟨⟨by decide, _, rfl, by decide⟩, ?_⟩, rfl⟩
  rintro T v hT ⟨h1, t, ht, hv⟩
  obtain rfl : T = 1 := by omega
  obtain rfl : hvAt 0 = t := Option.some.inj ht
  rw [show (hvAt 0).answersNow = none from rfl] at hv
  cases hv

/-- The same on a machine that stalls, `answer 0` in step 1: it accepts. -/
theorem witness_AcceptanceDependsOnFirstAnswer_stall :
    let c : Config := { harvard with answerMode := .stall }
    let s : State := State.initial c [.answer (.imm 0)] [] [] []
    s.answered = none ∧ FirstAnswer s 1 0 ∧ s.cfg.answerMode = .stall :=
  ⟨rfl, ⟨⟨by decide, _, rfl, by decide⟩, fun _ _ hT h => absurd h.1 (by omega)⟩, rfl⟩

/-! ## The canonical encoding -/

/-- A word with zeros in every don't-care bit; one with padding; a move with field #4, a compare with field #3 and a jump
with both; an unassigned opcode (30_encoding.md R96, 95_test_vectors.md section 2). -/
theorem witness_EncodeAfterDecode :
    decode Config.table 0x24DC04D2 = .ok (.add 3 7 (.imm 1234)) ∧
    encode Config.table (.add 3 7 (.imm 1234)) = 0x24DC04D2 ∧
    decode Config.table 0x24DF04D2 = .ok (.add 3 7 (.imm 1234)) ∧
    decode Config.table 0x944400FF = .ok (.mov 1 (.imm 255)) ∧ encode Config.table (.mov 1 (.imm 255)) = 0x944000FF ∧
    decode Config.table 0x6C500007 = .ok (.cmpe 4 (.imm 7)) ∧ encode Config.table (.cmpe 4 (.imm 7)) = 0x6C100007 ∧
    decode Config.table 0xA4440008 = .ok (.jmp (.imm 8)) ∧ encode Config.table (.jmp (.imm 8)) = 0xA4000008 ∧
    decode Config.table 0xB8000000 = .ok .unassigned23 ∧ encode Config.table .unassigned23 = 0xFC000001 := by decide

end Sys2Proof.Machine.Slice0
end

/-!
PROOFS. The statements about the state of the machine: the program counter, the instruction that a step runs in each
variant, and the initial state of an hv machine (10_state.md R23, R25, R28, R40).
-/

namespace Sys2Proof.Machine

/-! ## The program counter -/

/-- `PC_INC` in hv (00_scope.md R11). -/
theorem pcInc_of_hv {c : Config} (h : c.arch = .hv) : c.pcInc = 1 := by
  rw [Config.pcInc, h]

/-- `PC_INC` in vn is the bytes of a double word, `2W/8` (00_scope.md R11). -/
theorem pcInc_of_vn {c : Config} (h : c.arch = .vn) : c.pcInc = 2 * c.W / 8 := by
  have hbits : 2 * c.W / 8 = c.DWB := by simp only [Config.W, Config.DWB]; omega
  rw [hbits, Config.pcInc, h]

/-- The effect of an instruction leaves `pc` at the value of the table's column "pc": the three jumps and `answer` by
their own rows, every other instruction by its closing `advance` (10_state.md R23, R44). -/
theorem effectOf_uPc (i : Instr) (s : State) : (effectOf i s).uPc = pcAfter s i := by
  cases i
  case jmp a => exact State.setPc_uPc s (s.valA a)
  case cjmp a =>
    simp only [effectOf, pcAfter]
    split
    · exact State.setPc_uPc s (s.valA a)
    · exact State.advance_uPc s
  case cnjmp a =>
    simp only [effectOf, pcAfter]
    split
    · exact State.advance_uPc s
    · exact State.setPc_uPc s (s.valA a)
  case answer a => exact State.setAnswered_uPc s (s.valA a)
  case unassigned23 | unassigned24 | unassigned25 => exact State.setAnswered_uPc s (s.valA (.imm 1))
  case cmov i a =>
    simp only [effectOf, pcAfter]
    split
    · exact State.advance_uPc (s.setReg i (s.valA a))
    · exact State.advance_uPc s
  all_goals exact State.nextPc_toNat s

/-- Settles O35: an instruction of the machine completes with its effect, whose `pc` is the one the table gives. -/
theorem pcAdvancesUnlessJumpOrAnswer : Obligations.PcAdvancesUnlessJumpOrAnswer := by
  unfold Obligations.PcAdvancesUnlessJumpOrAnswer
  intro s i hw
  exact ⟨pcInc_of_hv, pcInc_of_vn, effectOf i s, exec_eq_next.2 ⟨hw, rfl⟩, effectOf_uPc i s⟩

/-! ## The instruction that a step runs -/

/-- A step of a run that goes on executes the instruction that it fetches, and counts itself (10_state.md R38). -/
theorem step_of_fetch {s : State} {i : Instr} (hh : hasHalted s = false) (hf : fetch s = .ok i) :
    exec i s = .next (effectOf i s) ∧ step s = .next (effectOf i s).countStep :=
  ⟨exec_eq_next.2 ⟨fetch_wf hf, rfl⟩, step_eq_next.2 ⟨hh, i, hf, rfl⟩⟩

/-- In vn the fetch gives the instruction to which the bytes of the double word at `pc` rounded down decode
(10_state.md R28). -/
theorem fetch_of_decodeBytes {s : State} {i : Instr} (hl : s.cfg.legal) (ha : s.cfg.arch = .vn)
    (hd : decodeBytes s.cfg ((List.range s.cfg.DWB).map fun k => s.byteAt (s.uPc / s.cfg.DWB * s.cfg.DWB + k)) = .ok i) :
    fetch s = .ok i := by
  rw [decodeBytes, if_pos (by simp)] at hd
  rw [fetch_vn_eq_ok hl ha, ← hd]
  exact congrArg (decode s.cfg) (fetchWord_eq fun k hk => by simp [List.getD_eq_getElem?_getD, hk])

/-- Settles O45: the bytes at `pc` rounded down are what is fetched, and a step runs what it fetches. -/
theorem stepRunsDecodedInstruction : Obligations.StepRunsDecodedInstruction := by
  unfold Obligations.StepRunsDecodedInstruction
  intro s i hh hl ha hd
  obtain ⟨hexec, hstep⟩ := step_of_fetch hh (fetch_of_decodeBytes hl ha hd)
  exact ⟨effectOf i s, hexec, hstep, State.countStep_steps _⟩

/-- `answer 1` is an instruction of every machine. -/
theorem answer_one_wf (c : Config) : (Instr.answer (.imm 1)).wf c = true :=
  (wf_iff _ _).2 ⟨by simp [Instr.registers], one_wf c⟩

/-- The effect of `answer 1` is the return value 1, as 1 is a word of every machine (48_answer_operation.md R172). -/
theorem effectOf_answer_one_answered (s : State) : (effectOf (.answer (.imm 1)) s).answered = some 1 := by
  have h1 : 1 < 2 ^ s.cfg.W := Nat.one_lt_two_pow (by have := W_pos s.cfg; omega)
  calc (effectOf (.answer (.imm 1)) s).answered
      = some (s.uA (.imm 1)) := State.setAnswered_answered s (s.valA (.imm 1))
    _ = some 1 := by rw [uA_imm h1]

/-- Settles O46: the fetch takes the instruction at `pc` from the program, and `answer 1` past its end. -/
theorem hvRunsProgramThenAnswersOne : Obligations.HvRunsProgramThenAnswersOne := by
  unfold Obligations.HvRunsProgramThenAnswersOne
  rintro s hh hl ha ⟨hlen, hwf⟩
  constructor
  · intro i hi
    have hf : fetch s = .ok i := (fetch_hv_eq_ok hl ha hlen).2 ⟨by rw [hi]; rfl, hwf i (List.mem_of_getElem? hi)⟩
    exact ⟨effectOf i s, step_of_fetch hh hf⟩
  · intro hend
    have hf : fetch s = .ok (.answer (.imm 1)) :=
      (fetch_hv_eq_ok hl ha hlen).2 ⟨by rw [List.getElem?_eq_none hend]; rfl, answer_one_wf s.cfg⟩
    obtain ⟨hexec, hstep⟩ := step_of_fetch hh hf
    exact ⟨effectOf (.answer (.imm 1)) s, hexec, hstep, effectOf_answer_one_answered s⟩

/-! ## The initial state of an hv machine -/

/-- An hv machine starts with the program it is given (10_state.md R24). -/
theorem initial_prog_of_hv {c : Config} (h : c.arch = .hv) (p : List Instr) (m : Memory) (x w : List (Word c.W)) :
    (State.initial c p m x w).prog = p := by
  simp only [State.initial, h]

/-- Every byte of memory of an hv machine starts at 0, whatever the image (10_state.md R40). -/
theorem initial_byteAt_of_hv {c : Config} (h : c.arch = .hv) (p : List Instr) (m : Memory) (x w : List (Word c.W))
    (a : Nat) : (State.initial c p m x w).byteAt a = 0 := by
  simp only [State.byteAt, State.initial, h]
  rfl

/-- Settles O52: in hv the loader accepts with the initial state only, each field of which is as R40 says. -/
theorem hvInitialStateIsZero : Obligations.HvInitialStateIsZero := by
  unfold Obligations.HvInitialStateIsZero
  intro c p m x w s ha hload
  obtain ⟨-, -, ⟨-, -, rfl⟩ | ⟨hvn, -, -⟩⟩ := load_eq_ok hload
  · exact ⟨rfl, initial_prog_of_hv ha p [] x w, rfl, initial_uReg c p [] x w, rfl,
      initial_byteAt_of_hv ha p [] x w, rfl, rfl⟩
  · rw [ha] at hvn
    cases hvn

end Sys2Proof.Machine

/-!
PROOFS. What `MemWrite` does to memory at every address, also where the block wraps at the top (20_memory.md R53).
-/

namespace Sys2Proof.Machine

/-- `MemWrite` puts bits `8k+7 : 8k` of its value at address `(a + k) mod 2^w`: as the block is no longer than memory, no
later byte of the block falls on the same address. -/
theorem read_memWrite_inside (m : Memory) (w a n k : Nat) (v : BitVec (8 * n)) (hn : n ≤ 2 ^ w) (hk : k < n) :
    Memory.read (memWrite m w a n v) ((a + k) % 2 ^ w) = v.extractLsb' (8 * k) 8 := by
  have hlen : (bytesOfBlock n v).length = n := bytesOfBlock_length n v
  calc Memory.read (memWrite m w a n v) ((a + k) % 2 ^ w)
      = (bytesOfBlock n v).getD k 0 := read_writeBytes_inside m w a _ k (hlen.trans_le hn) (hk.trans_eq hlen.symm)
    _ = v.extractLsb' (8 * k) 8 := bytesOfBlock_getD n v k hk

/-- `MemWrite` leaves alone every byte that is at no address of its block. -/
theorem read_memWrite_outside (m : Memory) (w a n b : Nat) (v : BitVec (8 * n))
    (hb : ∀ k, k < n → b ≠ (a + k) % 2 ^ w) : Memory.read (memWrite m w a n v) b = Memory.read m b :=
  read_writeBytes_outside m w a (bytesOfBlock n v) b fun k hk => hb k (hk.trans_eq (bytesOfBlock_length n v))

/-- Settles O28: the addresses of the block hold its bytes, and every other address what it held before. -/
theorem memWriteWritesItsBytesOnly : Obligations.MemWriteWritesItsBytesOnly := by
  unfold Obligations.MemWriteWritesItsBytesOnly
  intro m w a n v hn
  exact ⟨fun k hk => read_memWrite_inside m w a n k v hn hk, fun b hb => read_memWrite_outside m w a n b v hb⟩

end Sys2Proof.Machine

/-!
PROOFS. The four bit operations: each is decoded in its format, completes on operands of the machine, and writes its
result and the zero flag of that result (40_bit_operations.md R120).
-/

namespace Sys2Proof.Machine

/-- With operands of the machine an instruction completes with its effect (60_exceptions.md R180). -/
theorem exec_of_operandsOk {s : State} {ins : Instr} (h : OperandsOk s.cfg ins.registers ins.operandA) :
    exec ins s = .next (effectOf ins s) :=
  exec_eq_next.2 ⟨(wf_iff s.cfg ins).2 h, rfl⟩

/-- The shared ending of the bit operations writes a result and its zero flag (40_bit_operations.md R120). -/
theorem writesResult_bitStep {s : State} {i n : Nat} {r : Word s.cfg.W} (hi : i < s.cfg.K) (hr : r.toNat = n) :
    WritesResult s (bitStep s i r) i n (decide (n = 0)) :=
  writesResult_writeResult hi hr (by rw [zeroFlag_eq, hr])

/-- An instruction that ends in `bitStep` writes its result and the zero flag to a register that it names. -/
theorem exec_writesResult_of_bitStep {s : State} (ins : Instr) {i n : Nat} (r : Word s.cfg.W)
    (hok : OperandsOk s.cfg ins.registers ins.operandA) (hi : i ∈ ins.registers)
    (he : effectOf ins s = bitStep s i r) (hr : r.toNat = n) :
    ∃ t, exec ins s = .next t ∧ WritesResult s t i n (decide (n = 0)) :=
  ⟨bitStep s i r, he ▸ exec_of_operandsOk hok, writesResult_bitStep (hok.1 i hi) hr⟩

/-- Settles O1: the result is the AND of the two words, whose unsigned value is the AND of theirs. -/
theorem andStoresBitwiseAnd : Obligations.AndStoresBitwiseAnd := by
  unfold Obligations.AndStoresBitwiseAnd
  refine ⟨fun f hop => by simp [Fields.instr, hop], fun s i j a hok => ?_⟩
  have hr : (s.reg j &&& s.valA a).toNat = s.uReg j &&& s.uA a := BitVec.toNat_and _ _
  exact exec_writesResult_of_bitStep (.and i j a) _ hok List.mem_cons_self rfl hr

/-- Settles O2: the result is the OR of the two words, whose unsigned value is the OR of theirs. -/
theorem orStoresBitwiseOr : Obligations.OrStoresBitwiseOr := by
  unfold Obligations.OrStoresBitwiseOr
  refine ⟨fun f hop => by simp [Fields.instr, hop], fun s i j a hok => ?_⟩
  have hr : (s.reg j ||| s.valA a).toNat = s.uReg j ||| s.uA a := BitVec.toNat_or _ _
  exact exec_writesResult_of_bitStep (.or i j a) _ hok List.mem_cons_self rfl hr

/-- Settles O3: the result is the XOR of the two words, whose unsigned value is the XOR of theirs. -/
theorem xorStoresBitwiseXor : Obligations.XorStoresBitwiseXor := by
  unfold Obligations.XorStoresBitwiseXor
  refine ⟨fun f hop => by simp [Fields.instr, hop], fun s i j a hok => ?_⟩
  have hr : (s.reg j ^^^ s.valA a).toNat = s.uReg j ^^^ s.uA a := BitVec.toNat_xor _ _
  exact exec_writesResult_of_bitStep (.xor i j a) _ hok List.mem_cons_self rfl hr

/-- Each bit of the unsigned value of a complement is the negation of that bit of the word's. -/
theorem testBit_toNat_not {w k : Nat} (x : Word w) (hk : k < w) : (~~~x).toNat.testBit k = !x.toNat.testBit k := by
  rw [BitVec.testBit_toNat, BitVec.testBit_toNat, BitVec.getLsbD_not, decide_eq_true hk, Bool.true_and]

/-- Settles O4: the result is the complement of the word, a `W`-bit number with every bit of operand `A` negated. -/
theorem notStoresComplement : Obligations.NotStoresComplement := by
  unfold Obligations.NotStoresComplement
  refine ⟨fun f hop => by simp [Fields.instr, hop], fun s i a hok => ?_⟩
  obtain ⟨t, hexec, hwrites⟩ :=
    exec_writesResult_of_bitStep (.not i a) (~~~ s.valA a) hok List.mem_cons_self rfl rfl
  exact ⟨t, (~~~ s.valA a).toNat, hexec, BitVec.isLt _, fun k hk => testBit_toNat_not (s.valA a) hk, hwrites⟩

end Sys2Proof.Machine

/-!
PROOFS. The integer operations `add`, `sub`, `mull`, `udiv` and `umod`: each is decoded in format RRA, completes on
operands of the machine, and writes its result and its flag (41_integer_operations.md R131 to R133, R136, R137).
-/

namespace Sys2Proof.Machine

/-- An instruction that ends in `writeResult` writes its result and its flag, given here as the integer `n` and the
truth value `g`, to a register that it names (00_scope.md R17). -/
theorem exec_writesResult_of_writeResult {s : State} (ins : Instr) {i n : Nat} {r : Word s.cfg.W} {f g : Bool}
    (hok : OperandsOk s.cfg ins.registers ins.operandA) (hi : i ∈ ins.registers)
    (he : effectOf ins s = s.writeResult i r f) (hr : r.toNat = n) (hf : f = g) :
    ∃ t, exec ins s = .next t ∧ WritesResult s t i n g :=
  ⟨s.writeResult i r f, he ▸ exec_of_operandsOk hok, writesResult_writeResult (hok.1 i hi) hr hf⟩

/-! ## Sum, difference and low product -/

/-- Settles O5: the result is the sum cut to `W` bits, and the flag asks whether the sum needed the cut. -/
theorem addStoresSumAndCarry : Obligations.AddStoresSumAndCarry := by
  unfold Obligations.AddStoresSumAndCarry
  refine ⟨fun f hop => by simp [Fields.instr, hop], fun s i j a hok => ?_⟩
  exact exec_writesResult_of_writeResult (.add i j a) hok List.mem_cons_self rfl
    (addResult_toNat (s.reg j) (s.valA a)) rfl

/-- Settles O6: `G = u(rj) + 2^W - u(A)` is cut to `W` bits, and `G` stays below `2^W` exactly at a borrow. -/
theorem subStoresDifferenceAndBorrow : Obligations.SubStoresDifferenceAndBorrow := by
  unfold Obligations.SubStoresDifferenceAndBorrow
  refine ⟨fun f hop => by simp [Fields.instr, hop], fun s i j a hok => ?_⟩
  exact exec_writesResult_of_writeResult (.sub i j a) hok List.mem_cons_self rfl
    (subResult_toNat (s.reg j) (s.valA a)) (borrowFlag_eq (s.reg j) (s.valA a))

/-- Settles O7: the result is the product cut to `W` bits, and the flag asks whether the product needed the cut. -/
theorem mullStoresLowProduct : Obligations.MullStoresLowProduct := by
  unfold Obligations.MullStoresLowProduct
  refine ⟨fun f hop => by simp [Fields.instr, hop], fun s i j a hok => ?_⟩
  exact exec_writesResult_of_writeResult (.mull i j a) hok List.mem_cons_self rfl
    (mullResult_toNat (s.reg j) (s.valA a)) rfl

/-! ## Quotient and remainder -/

/-- Settles O11: the result is the quotient of the integers, which is 0 for a zero divisor; the remainder that R136 asks
for is that of the same division. -/
theorem udivStoresQuotient : Obligations.UdivStoresQuotient := by
  unfold Obligations.UdivStoresQuotient
  refine ⟨fun f hop => by simp [Fields.instr, hop], fun s i j a hok => ?_⟩
  obtain ⟨t, hexec, hwrites⟩ := exec_writesResult_of_writeResult (.udiv i j a) hok List.mem_cons_self rfl
    (udivResult_toNat (s.reg j) (s.valA a)) rfl
  refine ⟨t, s.uReg j / s.uA a, hexec, fun hzero => ?_, fun hne => ?_, hwrites⟩
  · rw [hzero, Nat.div_zero]
  · exact ⟨s.uReg j % s.uA a, Nat.mod_lt _ (Nat.pos_of_ne_zero hne), (Nat.div_add_mod _ _).symm⟩

/-- Settles O12: the result is 0 for a zero divisor, else the remainder of the integers; the quotient that R137 asks for
is that of the same division. -/
theorem umodStoresRemainder : Obligations.UmodStoresRemainder := by
  unfold Obligations.UmodStoresRemainder
  refine ⟨fun f hop => by simp [Fields.instr, hop], fun s i j a hok => ?_⟩
  obtain ⟨t, hexec, hwrites⟩ := exec_writesResult_of_writeResult (.umod i j a) hok List.mem_cons_self rfl
    (umodResult_toNat (s.reg j) (s.valA a)) rfl
  refine ⟨t, if s.uA a = 0 then 0 else s.uReg j % s.uA a, hexec, fun hzero => if_pos hzero, fun hne => ?_, hwrites⟩
  rw [if_neg hne]
  exact ⟨Nat.mod_lt _ (Nat.pos_of_ne_zero hne), s.uReg j / s.uA a, (Nat.div_add_mod _ _).symm⟩

end Sys2Proof.Machine

/-!
PROOFS. The five compare operations: each is decoded in format CA, completes on operands of the machine, and writes the
flag alone (43_compare_operations.md R145 to R150).
-/

namespace Sys2Proof.Machine

/-- An instruction that ends in `setFlag` and `advance` writes its flag, given here as the truth value `g`, and nothing
else (43_compare_operations.md R145). -/
theorem exec_writesFlag_of_setFlag {s : State} (ins : Instr) {f g : Bool}
    (hok : OperandsOk s.cfg ins.registers ins.operandA) (he : effectOf ins s = (s.setFlag f).advance) (hf : f = g) :
    ∃ t, exec ins s = .next t ∧ WritesFlag s t g :=
  ⟨(s.setFlag f).advance, he ▸ exec_of_operandsOk hok, writesFlag_setFlag hf⟩

/-- Settles O16: two words are equal as strings exactly when their unsigned values are. -/
theorem cmpeComparesEqual : Obligations.CmpeComparesEqual := by
  unfold Obligations.CmpeComparesEqual
  refine ⟨fun f hop => by simp [Fields.instr, hop], fun s i a hok => ?_⟩
  exact exec_writesFlag_of_setFlag (.cmpe i a) hok rfl (equalFlag_eq (s.reg i) (s.valA a))

/-- Settles O17: both flags are comparisons of the unsigned values, `ri` on the left. -/
theorem unsignedComparesSetFlag : Obligations.UnsignedComparesSetFlag := by
  unfold Obligations.UnsignedComparesSetFlag
  refine ⟨fun f hop => by simp [Fields.instr, hop], fun f hop => by simp [Fields.instr, hop], fun s i a hok => ?_⟩
  have habove : aboveFlag (s.reg i) (s.valA a) = decide (s.uReg i > s.uA a) := rfl
  have haboveEqual : aboveEqualFlag (s.reg i) (s.valA a) = decide (s.uReg i ≥ s.uA a) := rfl
  exact ⟨exec_writesFlag_of_setFlag (.cmpa i a) hok rfl habove,
    exec_writesFlag_of_setFlag (.cmpae i a) hok rfl haboveEqual⟩

/-- Settles O18: both flags are comparisons of the signed values, `ri` on the left. -/
theorem signedComparesSetFlag : Obligations.SignedComparesSetFlag := by
  unfold Obligations.SignedComparesSetFlag
  refine ⟨fun f hop => by simp [Fields.instr, hop], fun f hop => by simp [Fields.instr, hop], fun s i a hok => ?_⟩
  have hgreater : greaterFlag (s.reg i) (s.valA a) = decide (s.sReg i > s.sA a) := rfl
  have hgreaterEqual : greaterEqualFlag (s.reg i) (s.valA a) = decide (s.sReg i ≥ s.sA a) := rfl
  exact ⟨exec_writesFlag_of_setFlag (.cmpg i a) hok rfl hgreater,
    exec_writesFlag_of_setFlag (.cmpge i a) hok rfl hgreaterEqual⟩

end Sys2Proof.Machine

/-!
PROOFS. The move operations `mov` and `cmov`: each is decoded in format RA, completes on operands of the machine, and
keeps the flag (44_move_operations.md R152 to R154).
-/

namespace Sys2Proof.Machine

/-- An instruction that ends in `setReg` and `advance` writes its result, given here as the integer `n`, to a register
that it names, and keeps the flag (00_scope.md R17). -/
theorem exec_writesResult_of_setReg {s : State} (ins : Instr) {i n : Nat} {r : Word s.cfg.W}
    (hok : OperandsOk s.cfg ins.registers ins.operandA) (hi : i ∈ ins.registers)
    (he : effectOf ins s = (s.setReg i r).advance) (hr : r.toNat = n) :
    ∃ t, exec ins s = .next t ∧ WritesResult s t i n s.flag :=
  ⟨(s.setReg i r).advance, he ▸ exec_of_operandsOk hok, writesResult_setReg (hok.1 i hi) hr⟩

/-- Settles O19: the word that `mov` stores is operand `A`. -/
theorem movStoresOperand : Obligations.MovStoresOperand := by
  unfold Obligations.MovStoresOperand
  refine ⟨fun f hop => by simp [Fields.instr, hop], fun s i a hok => ?_⟩
  exact exec_writesResult_of_setReg (.mov i a) hok List.mem_cons_self rfl rfl

/-- With the flag set, `cmov` does what `mov` does (44_move_operations.md R154). -/
theorem effectOf_cmov_of_flag {s : State} (i : Nat) (a : Operand) (hflag : s.flag = true) :
    effectOf (.cmov i a) s = (s.setReg i (s.valA a)).advance := if_pos hflag

/-- Without the flag, `cmov` only advances `pc` (44_move_operations.md R154). -/
theorem effectOf_cmov_of_not_flag {s : State} (i : Nat) (a : Operand) (hflag : ¬ s.flag = true) :
    effectOf (.cmov i a) s = s.advance := if_neg hflag

/-- Settles O20: with the flag set `cmov` stores operand `A`; without it `cmov` writes no register. -/
theorem cmovStoresIfFlag : Obligations.CmovStoresIfFlag := by
  unfold Obligations.CmovStoresIfFlag
  refine ⟨fun f hop => by simp [Fields.instr, hop], fun s i a hok => ?_⟩
  by_cases hflag : s.flag = true
  · rw [if_pos hflag]
    exact exec_writesResult_of_setReg (.cmov i a) hok List.mem_cons_self (effectOf_cmov_of_flag i a hflag) rfl
  · rw [if_neg hflag]
    have hexec : exec (.cmov i a) s = .next s.advance :=
      effectOf_cmov_of_not_flag i a hflag ▸ exec_of_operandsOk (ins := .cmov i a) hok
    exact ⟨s.advance, hexec, writesResult_advance s i⟩

end Sys2Proof.Machine

/-!
PROOFS. The jump operations `jmp`, `cjmp` and `cnjmp`: each is decoded in format A, completes on operands of the
machine, and writes `pc` alone (45_jump_operations.md R156 to R159).
-/

namespace Sys2Proof.Machine

/-- An instruction whose effect is one write to `pc`, of a word given here as the integer `p`, changes nothing else
(45_jump_operations.md R156). -/
theorem exec_writesPc_of_setPc {s : State} (ins : Instr) {v : Word s.cfg.W} {p : Nat}
    (hok : OperandsOk s.cfg ins.registers ins.operandA) (he : effectOf ins s = s.setPc v) (hv : v.toNat = p) :
    ∃ t, exec ins s = .next t ∧ WritesPc s t p :=
  ⟨s.setPc v, he ▸ exec_of_operandsOk hok, hv ▸ writesPc_setPc s v⟩

/-- Settles O21: the word that `jmp` writes to `pc` is operand `A`, whatever its value. -/
theorem jmpStoresInPc : Obligations.JmpStoresInPc := by
  unfold Obligations.JmpStoresInPc
  refine ⟨fun f hop => by simp [Fields.instr, hop], fun s a hok => ?_⟩
  exact exec_writesPc_of_setPc (.jmp a) hok rfl rfl

/-- A `cjmp` is one write to `pc` in both cases: with the flag set of its target, without it of `next_pc`
(45_jump_operations.md R158). -/
theorem effectOf_cjmp (s : State) (a : Operand) :
    effectOf (.cjmp a) s = s.setPc (if s.flag then s.valA a else s.nextPc) :=
  (apply_ite s.setPc (s.flag = true) (s.valA a) s.nextPc).symm

/-- Settles O22: the word that `cjmp` writes to `pc` is operand `A` with the flag set, and `next_pc` without it. -/
theorem cjmpJumpsIfFlag : Obligations.CjmpJumpsIfFlag := by
  unfold Obligations.CjmpJumpsIfFlag
  refine ⟨fun f hop => by simp [Fields.instr, hop], fun s a hok => ?_⟩
  refine exec_writesPc_of_setPc (.cjmp a) hok (effectOf_cjmp s a) ?_
  split
  · rfl
  · exact State.nextPc_toNat s

/-- A `cnjmp` is one write to `pc` in both cases: with the flag set of `next_pc`, without it of its target
(45_jump_operations.md R159). -/
theorem effectOf_cnjmp (s : State) (a : Operand) :
    effectOf (.cnjmp a) s = s.setPc (if s.flag then s.nextPc else s.valA a) :=
  (apply_ite s.setPc (s.flag = true) s.nextPc (s.valA a)).symm

/-- Settles O23: the word that `cnjmp` writes to `pc` is `next_pc` with the flag set, and operand `A` without it. -/
theorem cnjmpJumpsUnlessFlag : Obligations.CnjmpJumpsUnlessFlag := by
  unfold Obligations.CnjmpJumpsUnlessFlag
  refine ⟨fun f hop => by simp [Fields.instr, hop], fun s a hok => ?_⟩
  refine exec_writesPc_of_setPc (.cnjmp a) hok (effectOf_cnjmp s a) ?_
  split
  · exact State.nextPc_toNat s
  · rfl

end Sys2Proof.Machine

/-!
PROOFS. The memory operations `store.b`, `load.b`, `store.w` and `load.w`: a store is decoded in format AR and writes
the bytes of one block, a load is decoded in format RA and writes one register (46_memory_operations.md R162 to R165).
-/

namespace Sys2Proof.Machine

/-- Bits `8k+7 : 8k` of a block, over the integers (20_memory.md R53). -/
theorem extractLsb'_byte_eq_ofNat {w : Nat} (v : BitVec w) (k : Nat) :
    v.extractLsb' (8 * k) 8 = BitVec.ofNat 8 (v.toNat / 2 ^ (8 * k)) :=
  congrArg (BitVec.ofNat 8) (Nat.shiftRight_eq_div_pow v.toNat (8 * k))

/-- Byte `k` of a block that does not wrap is the byte of memory at address `a + k` (20_memory.md R52). -/
theorem memRead_byte_of_le {m : Memory} {w a n k : Nat} (hfit : a + n ≤ 2 ^ w) (hk : k < n) :
    (memRead m w a n).extractLsb' (8 * k) 8 = Memory.read m (a + k) := by
  rw [memRead_byte m w a n k hk, Nat.mod_eq_of_lt (by omega)]

/-! ## Stores -/

/-- An instruction whose effect is one `MemWrite` of a block that does not wrap, then `advance`, writes the bytes of that
block, advances `pc`, and does nothing else (20_memory.md R53). -/
theorem exec_writesBlock_of_setMem {s : State} (ins : Instr) {a n : Nat} {v : BitVec (8 * n)}
    (hok : OperandsOk s.cfg ins.registers ins.operandA) (hfit : a + n ≤ 2 ^ s.cfg.W)
    (he : effectOf ins s = (s.setMem (memWrite s.mem s.cfg.W a n v)).advance) :
    ∃ t, exec ins s = .next t ∧ (∀ k, k < n → t.byteAt (a + k) = v.extractLsb' (8 * k) 8) ∧
      SameMemOutside a n s t ∧ t.flag = s.flag ∧ Advanced s t ∧ SameRegs [] s t ∧ SameRest s t := by
  have hread := read_memWrite s.mem s.cfg.W a n v hfit
  refine ⟨_, he ▸ exec_of_operandsOk hok, fun k hk => ?_, fun b hb => ?_, sameRest_setMem_advance s _⟩
  · calc Memory.read (memWrite s.mem s.cfg.W a n v) (a + k)
        = v.extractLsb' (8 * (a + k - a)) 8 := by rw [hread, if_pos (by omega)]
      _ = v.extractLsb' (8 * k) 8 := by rw [Nat.add_sub_cancel_left]
  · exact (hread b).trans (if_neg (by omega))

/-- Settles O24: `store.b` writes a block of one byte, the low byte of the register, and a block of one byte never
wraps. -/
theorem storeByteWritesOneByte : Obligations.StoreByteWritesOneByte := by
  unfold Obligations.StoreByteWritesOneByte
  refine ⟨fun f hop => by simp [Fields.instr, hop], fun s a i hok => ?_⟩
  have hfit : byteAddr s a + 1 ≤ 2 ^ s.cfg.W := (s.valA a).isLt
  obtain ⟨t, hexec, hbytes, hframe⟩ := exec_writesBlock_of_setMem (.storeB a i) hok hfit rfl
  refine ⟨t, hexec, rfl, ?_, hframe⟩
  calc t.byteAt (byteAddr s a)
      = ((s.reg i).extractLsb' 0 8).extractLsb' (8 * 0) 8 := hbytes 0 Nat.one_pos
    _ = (s.reg i).extractLsb' 0 8 := BitVec.extractLsb'_eq_self
    _ = BitVec.ofNat 8 (s.uReg i) := rfl

/-- Settles O26: `store.w` writes the register as a block of `WB` bytes at the address rounded down, from where the word
does not wrap. -/
theorem storeWordWritesAlignedWord : Obligations.StoreWordWritesAlignedWord := by
  unfold Obligations.StoreWordWritesAlignedWord
  refine ⟨fun f hop => by simp [Fields.instr, hop], fun s a i hok => ?_⟩
  have hfit : wordAddr s a + s.cfg.WB ≤ 2 ^ s.cfg.W := wal_add_le s.cfg (s.valA a)
  obtain ⟨t, hexec, hbytes, hframe⟩ := exec_writesBlock_of_setMem (.storeW a i) hok hfit rfl
  have hbytesNat : ∀ k, k < s.cfg.WB → t.byteAt (wordAddr s a + k) = BitVec.ofNat 8 (s.uReg i / 2 ^ (8 * k)) :=
    fun k hk => (hbytes k hk).trans (extractLsb'_byte_eq_ofNat (s.reg i) k)
  exact ⟨t, hexec, wal_eq s.cfg (s.valA a), hfit, hbytesNat, hframe⟩

/-! ## Loads -/

/-- A block of one byte, zero-extended to a word, has the value of the byte (46_memory_operations.md R163). -/
theorem toNat_setWidth_memRead_byte (s : State) (v : Word s.cfg.W) :
    ((memRead s.mem s.cfg.W v.toNat 1).setWidth s.cfg.W).toNat = (s.byteAt v.toNat).toNat := by
  have hbyte : memRead s.mem s.cfg.W v.toNat 1 = s.byteAt v.toNat :=
    BitVec.extractLsb'_eq_self.symm.trans (memRead_byte_of_le v.isLt Nat.one_pos)
  rw [hbyte, BitVec.toNat_setWidth_of_le (W_pos s.cfg)]

/-- Settles O25: the word that `load.b` stores is the byte at the address that operand `A` gives, zero-extended. -/
theorem loadByteZeroExtends : Obligations.LoadByteZeroExtends := by
  unfold Obligations.LoadByteZeroExtends
  refine ⟨fun f hop => by simp [Fields.instr, hop], fun s i a hok => ?_⟩
  exact exec_writesResult_of_setReg (.loadB i a) hok List.mem_cons_self rfl (toNat_setWidth_memRead_byte s (s.valA a))

/-- Settles O27: the word that `load.w` stores is the block of `WB` bytes at the address rounded down, from where the
word does not wrap. -/
theorem loadWordReadsAlignedWord : Obligations.LoadWordReadsAlignedWord := by
  unfold Obligations.LoadWordReadsAlignedWord
  refine ⟨fun f hop => by simp [Fields.instr, hop], fun s i a hok => ?_⟩
  have hfit : wordAddr s a + s.cfg.WB ≤ 2 ^ s.cfg.W := wal_add_le s.cfg (s.valA a)
  obtain ⟨t, hexec, hwrites⟩ := exec_writesResult_of_setReg (.loadW i a) hok List.mem_cons_self rfl rfl
  refine ⟨t, _, hexec, wal_eq s.cfg (s.valA a), BitVec.isLt _, fun k hk => ?_, hwrites⟩
  exact (extractLsb'_byte_eq_ofNat _ k).symm.trans (memRead_byte_of_le hfit hk)

end Sys2Proof.Machine

/-!
PROOFS. The input operation `read`: it is decoded in format RA, completes on operands of the machine, writes one result
and the flag, and consumes from one tape (47_input_operation.md R169, R170).
-/

namespace Sys2Proof.Machine

/-! ## The words that remain on a tape, over the integers -/

/-- The next word of a tape, or `0^W` at its end. -/
theorem toNat_headD_rem (s : State) (n : Nat) : ((s.rem n).headD 0).toNat = (s.uTape n).headD 0 := by
  rw [State.uTape]
  cases s.rem n with
  | nil => exact BitVec.toNat_zero
  | cons w ws => rfl

/-- The end of a tape (47_input_operation.md R170). -/
theorem endOfTapeFlag_rem (s : State) (n : Nat) : endOfTapeFlag (s.rem n) = (s.uTape n).isEmpty :=
  List.isEmpty_map.symm

/-- All but the first two tapes are empty (47_input_operation.md R169). -/
theorem uTape_eq_nil_of_two_le (s : State) : ∀ {n : Nat}, 2 ≤ n → s.uTape n = []
  | _ + 2, _ => rfl

/-- A consumed tape is left without its first word. -/
theorem consume_uTape_same (s : State) (n : Nat) : (s.consume n).uTape n = (s.uTape n).tail := by
  rw [State.consume_uTape, if_pos rfl]

/-- Consuming from a tape leaves every other tape as it was. -/
theorem consume_uTape_of_ne (s : State) {n k : Nat} (h : k ≠ n) : (s.consume n).uTape k = s.uTape k := by
  rw [State.consume_uTape, if_neg h]

/-! ## The operation -/

/-- Consuming from tape `n` after a result is written takes the first word of that tape, and leaves the result and all
else that was written or kept as it was (47_input_operation.md R170). -/
theorem consume_of_writesResult {s u : State} {i r : Nat} {f : Bool} (n : Nat) (h : WritesResult s u i r f) :
    (u.consume n).uReg i = r ∧ (u.consume n).flag = f ∧ (u.consume n).uTape n = (s.uTape n).tail ∧
      (∀ k, k ≠ n → (u.consume n).uTape k = s.uTape k) ∧ Advanced s (u.consume n) ∧ SameRegs [i] s (u.consume n) ∧
      SameMem s (u.consume n) ∧ SameMachine s (u.consume n) ∧ SameBook s (u.consume n) := by
  obtain ⟨hreg, hflag, hpc, hregs, hmem, hmachine, htapes, hbook⟩ := h
  have htape : (u.consume n).uTape n = (s.uTape n).tail := by rw [consume_uTape_same, htapes n]
  have hother : ∀ k, k ≠ n → (u.consume n).uTape k = s.uTape k := fun k hk => by
    rw [consume_uTape_of_ne u hk, htapes k]
  exact ⟨hreg, hflag, htape, hother, hpc, hregs, hmem, hmachine, hbook⟩

/-- Settles O30: `read` writes the next word and the end of the tape as a result and its flag, and then consumes from
that tape. -/
theorem readConsumesNextWord : Obligations.ReadConsumesNextWord := by
  unfold Obligations.ReadConsumesNextWord
  refine ⟨fun f hop => by simp [Fields.instr, hop], fun s i a hok => ?_⟩
  obtain ⟨hreg, hflag, htape, hother, hframe⟩ := consume_of_writesResult (s.uA a)
    (writesResult_writeResult (hok.1 i List.mem_cons_self) (toNat_headD_rem s (s.uA a)) (endOfTapeFlag_rem s (s.uA a)))
  exact ⟨_, exec_of_operandsOk (ins := .read i a) hok, hreg, hflag, htape, hother, uTape_eq_nil_of_two_le s, hframe⟩

end Sys2Proof.Machine

/-!
PROOFS. The binary encoding: decoding undoes encoding, encoding undoes decoding where no bit is a don't-care, and what
the decoder ignores and refuses (30_encoding.md sections 1 to 4; 20_memory.md R54).
-/

namespace Sys2Proof.Machine

/-! ## Decoding an encoded instruction -/

/-- Every instruction has the round trip through its fields, by the row of its constructor. -/
theorem fieldsRoundTrip (i : Instr) : Laws.FieldsRoundTrip.Statement i := by
  cases i with
  | and ri rj a => exact Laws.FieldsRoundTrip.and ri rj a
  | or ri rj a => exact Laws.FieldsRoundTrip.or ri rj a
  | xor ri rj a => exact Laws.FieldsRoundTrip.xor ri rj a
  | not ri a => exact Laws.FieldsRoundTrip.not ri a
  | add ri rj a => exact Laws.FieldsRoundTrip.add ri rj a
  | sub ri rj a => exact Laws.FieldsRoundTrip.sub ri rj a
  | mull ri rj a => exact Laws.FieldsRoundTrip.mull ri rj a
  | umulh ri rj a => exact Laws.FieldsRoundTrip.umulh ri rj a
  | smulh ri rj a => exact Laws.FieldsRoundTrip.smulh ri rj a
  | udiv ri rj a => exact Laws.FieldsRoundTrip.udiv ri rj a
  | umod ri rj a => exact Laws.FieldsRoundTrip.umod ri rj a
  | shl ri rj a => exact Laws.FieldsRoundTrip.shl ri rj a
  | shr ri rj a => exact Laws.FieldsRoundTrip.shr ri rj a
  | cmpe ri a => exact Laws.FieldsRoundTrip.cmpe ri a
  | cmpa ri a => exact Laws.FieldsRoundTrip.cmpa ri a
  | cmpae ri a => exact Laws.FieldsRoundTrip.cmpae ri a
  | cmpg ri a => exact Laws.FieldsRoundTrip.cmpg ri a
  | cmpge ri a => exact Laws.FieldsRoundTrip.cmpge ri a
  | mov ri a => exact Laws.FieldsRoundTrip.mov ri a
  | cmov ri a => exact Laws.FieldsRoundTrip.cmov ri a
  | jmp a => exact Laws.FieldsRoundTrip.jmp a
  | cjmp a => exact Laws.FieldsRoundTrip.cjmp a
  | cnjmp a => exact Laws.FieldsRoundTrip.cnjmp a
  | storeB a ri => exact Laws.FieldsRoundTrip.storeB a ri
  | loadB ri a => exact Laws.FieldsRoundTrip.loadB ri a
  | storeW a ri => exact Laws.FieldsRoundTrip.storeW a ri
  | loadW ri a => exact Laws.FieldsRoundTrip.loadW ri a
  | read ri a => exact Laws.FieldsRoundTrip.read ri a
  | answer a => exact Laws.FieldsRoundTrip.answer a
  | unassigned23 => exact Laws.FieldsRoundTrip.unassigned23
  | unassigned24 => exact Laws.FieldsRoundTrip.unassigned24
  | unassigned25 => exact Laws.FieldsRoundTrip.unassigned25

/-- The fields of an encoded instruction are those that the encoder wrote (30_encoding.md R81, R96). -/
theorem fieldsOf_encode {c : Config} {i : Instr} (he : c.encodable) (hw : i.wf c = true) :
    fieldsOf c (encode c i) = i.fields := by
  obtain ⟨-, hop, hfits⟩ := fieldsRoundTrip i
  obtain ⟨h3, h4, h6⟩ := hfits c hw he
  exact fieldsOf_pack c he i.fields hop h3 h4 h6

/-- An assigned instruction is its own canonical form. -/
theorem canonical_of_assigned {i : Instr} (h : i.isUnassigned = false) : i.canonical = i := by
  rw [Instr.canonical, h]
  rfl

/-- An unassigned opcode is the instruction `answer 1` (30_encoding.md R93). -/
theorem canonical_of_unassigned {i : Instr} (h : i.isUnassigned = true) : i.canonical = .answer (.imm 1) :=
  if_pos h

/-- The canonical form of an instruction of the machine is one of the machine. -/
theorem canonical_wf {c : Config} {i : Instr} (hw : i.wf c = true) : i.canonical.wf c = true := by
  cases hu : i.isUnassigned with
  | false => rw [canonical_of_assigned hu, hw]
  | true => rw [canonical_of_unassigned hu, answer_one_wf]

/-- Decoding the encoded double word gives the canonical form of the instruction (30_encoding.md R92, R96). -/
theorem decode_encode {c : Config} {i : Instr} (he : c.encodable) (hw : i.wf c = true) :
    decode c (encode c i) = .ok i.canonical := by
  obtain ⟨hinstr, -, -⟩ := fieldsRoundTrip i
  rw [decode_eq_ok, fieldsOf_encode he hw]
  exact ⟨he, hinstr.symm, canonical_wf hw⟩

/-- Decoding the bytes of an encoded instruction is decoding its double word (20_memory.md R54). -/
theorem decodeBytes_encodeBytes (c : Config) (i : Instr) :
    decodeBytes c (encodeBytes c i) = decode c (encode c i) := by
  rw [decodeBytes, encodeBytes, if_pos (bytesOfBlock_length _ _), blockOfBytes_bytesOfBlock]

/-- Settles O39: as a word and as bytes an encoded instruction decodes to its canonical form. -/
theorem decodeAfterEncode : Obligations.DecodeAfterEncode := by
  unfold Obligations.DecodeAfterEncode
  intro c i he hw
  rw [decodeBytes_encodeBytes, decode_encode he hw]
  exact ⟨fun hu => by simp [canonical_of_assigned hu], fun hu => by simp [canonical_of_unassigned hu]⟩

/-! ## The bytes of an encoded instruction -/

/-- The five most significant bits of a byte. -/
theorem toNat_div_eight (b : Byte) : b.toNat / 2 ^ 3 = (b.extractLsb' 3 5).toNat := by
  rw [BitVec.extractLsb'_toNat, Nat.shiftRight_eq_div_pow, Nat.mod_eq_of_lt (by omega)]

/-- Settles O43: the bytes of the encoded instruction are slices of its fields #6 and #1, which are those written. -/
theorem encodedInstructionLiesLittleEndian : Obligations.EncodedInstructionLiesLittleEndian := by
  unfold Obligations.EncodedInstructionLiesLittleEndian
  intro c i he hw
  have hf := fieldsOf_encode he hw
  have hf6 : ((encode c i).extractLsb' 0 c.W).toNat = i.fields.f6 := congrArg Fields.f6 hf
  have hop : ((encode c i).extractLsb' (2 * c.W - 5) 5).toNat = i.fields.opcode := congrArg Fields.opcode hf
  have hpos := W_pos c
  have hW : c.W = 8 * c.WB := rfl
  have hD : c.DWB = 2 * c.WB := rfl
  refine ⟨bytesOfBlock_length _ _, fun k hk => ?_, ?_⟩
  · calc (encodeBytes c i).getD k 0
        = (encode c i).extractLsb' (0 + 8 * k) 8 := by
          rw [Nat.zero_add]; exact bytesOfBlock_getD _ _ k (by omega)
      _ = ((encode c i).extractLsb' 0 c.W).extractLsb' (8 * k) 8 :=
          (extractLsb'_extractLsb' _ 0 (8 * k) c.W 8 (by omega)).symm
      _ = BitVec.ofNat 8 (i.fields.f6 / 2 ^ (8 * k)) := by rw [extractLsb'_byte_eq_ofNat, hf6]
  · calc ((encodeBytes c i).getD (c.DWB - 1) 0).toNat / 2 ^ 3
        = (((encode c i).extractLsb' (8 * (c.DWB - 1)) 8).extractLsb' 3 5).toNat := by
          rw [encodeBytes, bytesOfBlock_getD _ _ _ (by omega), toNat_div_eight]
      _ = ((encode c i).extractLsb' (2 * c.W - 5) 5).toNat := by
          rw [extractLsb'_extractLsb' _ _ 3 8 5 (by omega), show 8 * (c.DWB - 1) + 3 = 2 * c.W - 5 by omega]
      _ = i.fields.opcode := hop

end Sys2Proof.Machine

/-!
PROOFS. What every step keeps: the parameters and the program, the well-formed states, and a run that has ended
standing at its answer; and which runs accept (10_state.md sections 4, 6 and 8; 48_answer_operation.md R173, R175).
-/

namespace Sys2Proof.Machine

/-! ## Parameters, program and memory -/

/-- Settles O51: the effect of an instruction keeps the machine and its count, and the step then counts one. -/
theorem stepKeepsProgramAndParameters : Obligations.StepKeepsProgramAndParameters := by
  unfold Obligations.StepKeepsProgramAndParameters
  intro s t hstep
  obtain ⟨-, i, -, rfl⟩ := step_eq_next.1 hstep
  obtain ⟨hcfg, hprog, hsteps⟩ := effectOf_machine i s
  exact ⟨hcfg, hprog, congrArg (· + 1) hsteps⟩

/-- The effect of an instruction keeps memory in its canonical form and within its addresses: it is the memory before,
or that after one `MemWrite` (20_memory.md R51, R53). -/
theorem effectOf_mem_wf {i : Instr} {s : State} (hm : Memory.wf s.mem) (hb : ∀ p ∈ s.mem, p.1 < 2 ^ s.cfg.W) :
    Memory.wf (effectOf i s).mem ∧ ∀ p ∈ (effectOf i s).mem, p.1 < 2 ^ s.cfg.W := by
  obtain hsame | ⟨a, n, v, hwrite⟩ := effectOf_mem i s
  · rw [hsame]
    exact ⟨hm, hb⟩
  · rw [hwrite]
    exact ⟨wf_memWrite hm _ a n v, bounded_memWrite hb a n v⟩

/-- Settles O49: a step changes no parameter and no program, and changes memory by at most one `MemWrite`. -/
theorem stepKeepsStateWellFormed : Obligations.StepKeepsStateWellFormed := by
  unfold Obligations.StepKeepsStateWellFormed
  rintro s t ⟨hlegal, hprogram, hmem, hbound⟩ hstep
  obtain ⟨hcfg, hprog, -⟩ := stepKeepsProgramAndParameters s t hstep
  obtain ⟨-, i, -, rfl⟩ := step_eq_next.1 hstep
  obtain ⟨hmem', hbound'⟩ := effectOf_mem_wf (i := i) hmem hbound
  unfold State.wf
  rw [hcfg, hprog]
  exact ⟨hlegal, hprogram, hmem', hbound'⟩

/-! ## The bookkeeping of an answer -/

@[simp] theorem fetch_setAnswered (s : State) (x : Word s.cfg.W) : fetch (s.setAnswered x) = fetch s := rfl

@[simp] theorem fetch_countStep (s : State) : fetch s.countStep = fetch s := rfl

/-- The return value of an `answer` does not depend on the bookkeeping. -/
theorem answerValue_setAnswered (s : State) (x : Word s.cfg.W) (i : Instr) :
    answerValue (s.setAnswered x) i = answerValue s i := by
  cases i <;> rfl

/-- Nor does it depend on the count of steps. -/
theorem answerValue_countStep (s : State) (i : Instr) : answerValue s.countStep i = answerValue s i := by
  cases i <;> rfl

/-- The answer that is fetched, where the fetch succeeds. -/
theorem fetchedAnswer_of_fetch {s : State} {i : Instr} (h : fetch s = .ok i) : s.fetchedAnswer = answerValue s i := by
  rw [State.fetchedAnswer, h]

/-- An answer is fetched only by a fetch that succeeds. -/
theorem exists_fetch_of_fetchedAnswer {s : State} {v : Nat} (h : s.fetchedAnswer = some v) :
    ∃ i, fetch s = .ok i ∧ answerValue s i = some v := by
  cases hf : fetch s with
  | ok i => exact ⟨i, rfl, fetchedAnswer_of_fetch hf ▸ h⟩
  | error r => simp [State.fetchedAnswer, hf] at h

/-- Noting a return value and counting leave the answer that is fetched as it was. -/
theorem fetchedAnswer_setAnswered (s : State) (x : Word s.cfg.W) :
    (s.setAnswered x).fetchedAnswer = s.fetchedAnswer := by
  cases hf : fetch s with
  | ok i => rw [fetchedAnswer_of_fetch hf, fetchedAnswer_of_fetch ((fetch_setAnswered s x).trans hf),
      answerValue_setAnswered]
  | error r => simp [State.fetchedAnswer, hf]

/-- Counting a step leaves the answer that is fetched as it was. -/
theorem fetchedAnswer_countStep (s : State) : s.countStep.fetchedAnswer = s.fetchedAnswer := by
  cases hf : fetch s with
  | ok i => rw [fetchedAnswer_of_fetch hf, fetchedAnswer_of_fetch ((fetch_countStep s).trans hf), answerValue_countStep]
  | error r => simp [State.fetchedAnswer, hf]

/-- What a step does to the bookkeeping: it notes the value of the answer that it executes and changes nothing else
but the count, or it executes no answer and leaves the bookkeeping alone (48_answer_operation.md R172). -/
theorem step_answer_cases {s t : State} (h : step s = .next t) :
    (∃ x : Word s.cfg.W, s.fetchedAnswer = some x.toNat ∧ t = (s.setAnswered x).countStep) ∨
      (s.fetchedAnswer = none ∧ t.answered = s.answered) := by
  obtain ⟨-, i, hf, rfl⟩ := step_eq_next.1 h
  rw [fetchedAnswer_of_fetch hf]
  cases hv : answerValue s i with
  | some v =>
    obtain ⟨x, rfl, hx⟩ := effectOf_of_answer hv
    exact .inl ⟨x, rfl, congrArg State.countStep hx⟩
  | none => exact .inr ⟨rfl, effectOf_of_not_answer hv⟩

/-- A step is taken only where the run has not halted, and then the answer executed is the one fetched. -/
theorem answersNow_of_step {s t : State} (h : step s = .next t) : s.answersNow = s.fetchedAnswer := by
  rw [State.answersNow, (step_eq_next.1 h).1]
  rfl

/-- Settles O56: the bookkeeping after a step holds the value of the answer executed, or else what it held before. -/
theorem onlyAnswerEndsARun : Obligations.OnlyAnswerEndsARun := by
  unfold Obligations.OnlyAnswerEndsARun
  intro s t hstep
  rw [answersNow_of_step hstep]
  obtain ⟨x, hx, rfl⟩ | ⟨hnone, hsame⟩ := step_answer_cases hstep
  · rw [hx]
    rfl
  · rw [hnone, hsame]
    rfl

/-- Settles O57: a step that executes an answer leaves `pc` and memory, so the same answer is fetched again; a step that
executes none starts, by the invariant, from a run that has not ended, and does not end it. -/
theorem stepKeepsRestingAtAnswer : Obligations.StepKeepsRestingAtAnswer := by
  unfold Obligations.StepKeepsRestingAtAnswer
  intro s t hrest hstep v hv
  obtain ⟨x, hx, rfl⟩ | ⟨hnone, hsame⟩ := step_answer_cases hstep
  · have hxv : x.toNat = v := Option.some.inj hv
    rw [fetchedAnswer_countStep, fetchedAnswer_setAnswered, hx, hxv]
  · have hfetched := hrest v (hsame ▸ hv)
    rw [hnone] at hfetched
    cases hfetched

/-- A run that has not ended rests at its answer: there is none yet. -/
theorem restsAtAnswer_of_running {s : State} (h : s.answered = none) : s.restsAtAnswer := fun v hv => by
  rw [h] at hv
  cases hv

/-- Settles O50: the state at reset has no program and no byte in memory, and its run has not ended. -/
theorem resetMeetsTheInvariants : Obligations.ResetMeetsTheInvariants := by
  unfold Obligations.ResetMeetsTheInvariants
  have hlegal : Config.table.legal := by decide
  have hprogram : Program.wf Config.table [] := ⟨Nat.zero_le _, by simp⟩
  exact ⟨⟨hlegal, hprogram, ⟨List.Pairwise.nil, by simp [State.reset, State.initial, Config.table]⟩,
    by simp [State.reset, State.initial, Config.table]⟩, rfl, restsAtAnswer_of_running rfl⟩

/-! ## After the answer -/

/-- A run that has ended holds its return value as a word. -/
theorem status_of_answered {s : State} {v : Nat} (h : s.answered = some v) :
    ∃ x : Word s.cfg.W, x.toNat = v ∧ s.status = .answered x := by
  unfold State.answered at h
  cases hs : s.status with
  | running => rw [hs] at h; cases h
  | answered x => rw [hs] at h; exact ⟨x, Option.some.inj h, rfl⟩

/-- On a machine that halts, a run that has ended has halted (48_answer_operation.md R173). -/
theorem hasHalted_of_halt {s : State} {v : Nat} (h : s.answered = some v) (hm : s.cfg.answerMode = .halt) :
    hasHalted s = true := by
  obtain ⟨x, -, hs⟩ := status_of_answered h
  simp [hasHalted, hs, hm]

/-- A machine that stalls never halts (48_answer_operation.md R173). -/
theorem hasHalted_of_stall {s : State} (hm : s.cfg.answerMode = .stall) : hasHalted s = false := by
  simp [hasHalted, hm]

/-- A run that goes on has not halted. -/
theorem hasHalted_of_running {s : State} (h : s.answered = none) : hasHalted s = false := by
  cases hh : hasHalted s with
  | false => rfl
  | true =>
    unfold hasHalted at hh
    split at hh
    · next x _ hs _ => simp [State.answered, hs, Status.value] at h
    · cases hh

/-- Noting the return value that is noted already changes nothing. -/
theorem setAnswered_of_status {s : State} {x : Word s.cfg.W} (h : s.status = .answered x) : s.setAnswered x = s := by
  rw [State.setAnswered, ← h]

/-- Settles O58: a halted run has no step; a stalled one executes the answer that it rests at, which notes the same
value again. -/
theorem answeredMachineStandsStill : Obligations.AnsweredMachineStandsStill := by
  unfold Obligations.AnsweredMachineStandsStill
  intro s v hv hrest
  refine ⟨fun hm => if_pos (hasHalted_of_halt hv hm), fun hm => ?_⟩
  obtain ⟨i, hf, hi⟩ := exists_fetch_of_fetchedAnswer (hrest v hv)
  obtain ⟨x, hxv, hx⟩ := effectOf_of_answer hi
  obtain ⟨y, hyv, hy⟩ := status_of_answered hv
  obtain rfl : x = y := BitVec.eq_of_toNat_eq (hxv.trans hyv.symm)
  rw [(step_of_fetch (hasHalted_of_stall hm) hf).2, hx, setAnswered_of_status hy]

/-! ## Accepting computations -/

/-- The run of `m + n` steps is one of `m` steps and then one of `n`. -/
theorem stateAfter_add (m n : Nat) (s : State) : stateAfter (m + n) s = (stateAfter m s).bind (stateAfter n) := by
  induction m generalizing s with
  | zero => rw [Nat.zero_add]; rfl
  | succ m ih =>
    rw [Nat.succ_add, stateAfter, stateAfter]
    cases step s with
    | next t => exact ih t
    | fault r => rfl
    | refused r => rfl

/-- What every step of a run keeps, every number of steps keeps. -/
theorem stateAfter_induction {P : State → Prop} (hstep : ∀ s t, P s → step s = .next t → P t) {n : Nat} {s t : State}
    (hs : P s) (h : stateAfter n s = some t) : P t := by
  induction n generalizing s with
  | zero => exact Option.some.inj h ▸ hs
  | succ n ih =>
    rw [stateAfter] at h
    cases hst : step s with
    | next u => rw [hst] at h; exact ih (hstep s u hs hst) h
    | fault r => rw [hst] at h; cases h
    | refused r => rw [hst] at h; cases h

/-- Any number of steps keeps the parameters. -/
theorem stateAfter_cfg {n : Nat} {s t : State} (h : stateAfter n s = some t) : t.cfg = s.cfg :=
  stateAfter_induction (P := fun u => u.cfg = s.cfg)
    (fun u u' hu hst => (stepKeepsProgramAndParameters u u' hst).1.trans hu) rfl h

/-- The state after the step that executes an answer has ended its run with that value, and rests there. -/
theorem step_of_answersNow {s : State} {v : Nat} (h : s.answersNow = some v) :
    ∃ t, step s = .next t ∧ t.cfg = s.cfg ∧ t.answered = some v ∧ t.restsAtAnswer := by
  unfold State.answersNow at h
  split at h
  · cases h
  next hh =>
    obtain ⟨i, hf, hi⟩ := exists_fetch_of_fetchedAnswer h
    obtain ⟨x, rfl, hx⟩ := effectOf_of_answer hi
    refine ⟨(s.setAnswered x).countStep, ?_, rfl, rfl, fun w hw => ?_⟩
    · rw [(step_of_fetch (by simpa using hh) hf).2, hx]
    · have hxw : x.toNat = w := Option.some.inj hw
      rw [fetchedAnswer_countStep, fetchedAnswer_setAnswered, h, hxw]

/-- On a machine that halts, a run that has ended executes no further answer, in whatever number of steps. -/
theorem not_answers_after_halt {s t : State} {v w n : Nat} (hv : s.answered = some v) (hm : s.cfg.answerMode = .halt)
    (h : stateAfter n s = some t) : t.answersNow ≠ some w := by
  have hh := hasHalted_of_halt hv hm
  cases n with
  | zero =>
    obtain rfl := Option.some.inj h
    simp [State.answersNow, hh]
  | succ n =>
    have hstep : step s = .fault .halted := if_pos hh
    rw [stateAfter, hstep] at h
    cases h

/-- On a machine that stalls, a run that has ended executes the same answer in every further step. -/
theorem answers_after_stall {s : State} {v : Nat} (n : Nat) (hv : s.answered = some v) (hrest : s.restsAtAnswer)
    (hm : s.cfg.answerMode = .stall) : ∃ t, stateAfter n s = some t ∧ t.answersNow = some v := by
  induction n generalizing s with
  | zero => exact ⟨s, rfl, by rw [State.answersNow, hasHalted_of_stall hm]; exact hrest v hv⟩
  | succ n ih =>
    have hstep := (answeredMachineStandsStill s v hv hrest).2 hm
    have hrest' := stepKeepsRestingAtAnswer s s.countStep hrest hstep
    obtain ⟨t, ht, hans⟩ := ih (s := s.countStep) hv hrest' hm
    exact ⟨t, by rw [stateAfter, hstep]; exact ht, hans⟩

/-- One number of a step has one return value. -/
theorem AnswersAt.unique {s : State} {T v w : Nat} (hv : AnswersAt s T v) (hw : AnswersAt s T w) : v = w := by
  obtain ⟨-, t, ht, htv⟩ := hv
  obtain ⟨-, u, hu, huw⟩ := hw
  obtain rfl : t = u := Option.some.inj (ht.symm.trans hu)
  exact Option.some.inj (htv.symm.trans huw)

/-- After the step `T0` that executes an answer with value `v0` the run is at a state that has ended with `v0` and rests
there, and the further steps are the steps from that state. -/
theorem exists_state_after_answer {s : State} {T0 v0 : Nat} (h : AnswersAt s T0 v0) :
    ∃ u, u.cfg = s.cfg ∧ u.answered = some v0 ∧ u.restsAtAnswer ∧
      ∀ T v, T0 < T → (AnswersAt s T v ↔ ∃ t, stateAfter (T - T0 - 1) u = some t ∧ t.answersNow = some v) := by
  obtain ⟨hpos, r, hr, hrv⟩ := h
  obtain ⟨u, hstep, hcfg, hans, hrest⟩ := step_of_answersNow hrv
  refine ⟨u, hcfg.trans (stateAfter_cfg hr), hans, hrest, fun T v hT => ?_⟩
  have hsplit : stateAfter (T - 1) s = stateAfter (T - T0 - 1) u := by
    rw [show T - 1 = (T0 - 1) + ((T - T0 - 1) + 1) by omega, stateAfter_add, hr, Option.bind_some, stateAfter, hstep]
  rw [AnswersAt, hsplit]
  exact ⟨fun hT => hT.2, fun ht => ⟨by omega, ht⟩⟩

/-- Settles O59: no answer comes before step `T0`; in it the value is `v0`; after it a machine that halts executes no
answer and one that stalls executes the same in every step. -/
theorem acceptanceDependsOnFirstAnswer : Obligations.AcceptanceDependsOnFirstAnswer := by
  unfold Obligations.AcceptanceDependsOnFirstAnswer
  rintro s T0 v0 - ⟨hfirst, hbefore⟩
  obtain ⟨u, hcfg, hans, hrest, hafter⟩ := exists_state_after_answer hfirst
  refine ⟨fun hm T => ⟨fun hacc => ?_, ?_⟩, fun hm T => ⟨fun hacc => ?_, ?_⟩⟩
  · obtain hlt | rfl | hgt := Nat.lt_trichotomy T T0
    · exact absurd hacc (hbefore T 0 hlt)
    · exact ⟨hfirst.unique hacc, rfl⟩
    · obtain ⟨t, ht, htv⟩ := (hafter T 0 hgt).1 hacc
      exact absurd htv (not_answers_after_halt hans (hcfg ▸ hm) ht)
  · rintro ⟨rfl, rfl⟩
    exact hfirst
  · obtain hlt | rfl | hgt := Nat.lt_trichotomy T T0
    · exact absurd hacc (hbefore T 0 hlt)
    · exact ⟨hfirst.unique hacc, Nat.le_refl _⟩
    · have hv0 := (hafter T v0 hgt).2 (answers_after_stall _ hans hrest (hcfg ▸ hm))
      exact ⟨hv0.unique hacc, hgt.le⟩
  · rintro ⟨rfl, hle⟩
    obtain rfl | hgt := hle.eq_or_lt
    · exact hfirst
    · exact (hafter T 0 hgt).2 (answers_after_stall _ hans hrest (hcfg ▸ hm))

end Sys2Proof.Machine

/-!
PROOFS. The remaining products, the shifts, `answer` and the unassigned opcodes; which instructions complete and which
are refused; a byte loaded from a stored word (41_integer_operations.md R134, R135, R138; 42_shift_operations.md R141,
R142; 48_answer_operation.md R172; 30_encoding.md R93, R95).
-/

namespace Sys2Proof.Machine

/-! ## The word size -/

/-- A word has a bit. -/
theorem zero_lt_W (c : Config) : 0 < c.W := Nat.lt_of_lt_of_le (by decide) (W_pos c)

/-- 1 is the value of a word. -/
theorem one_lt_two_pow_W (c : Config) : 1 < 2 ^ c.W := Nat.one_lt_two_pow (zero_lt_W c).ne'

/-! ## The high word of the unsigned product -/

/-- Settles O8: the result is the product without its `W` low bits, and the flag asks whether it has more than these. -/
theorem umulhStoresHighProduct : Obligations.UmulhStoresHighProduct := by
  unfold Obligations.UmulhStoresHighProduct
  refine ⟨fun f hop => by simp [Fields.instr, hop], fun s i j a hok => ?_⟩
  exact exec_writesResult_of_writeResult (.umulh i j a) hok List.mem_cons_self rfl
    (umulhResult_toNat (s.reg j) (s.valA a)) rfl

/-- Settles O13: the two results are quotient and remainder of the product by `2^W`, and the quotient is not 0 exactly
when the product is no `W`-bit number, which both flags say. -/
theorem mullAndUmulhMakeTheProduct : Obligations.MullAndUmulhMakeTheProduct := by
  unfold Obligations.MullAndUmulhMakeTheProduct
  intro s i j a hok
  obtain ⟨t, ht, hlow, htflag, -⟩ := mullStoresLowProduct.2 s i j a hok
  obtain ⟨u, hu, hhigh, huflag, -⟩ := umulhStoresHighProduct.2 s i j a hok
  have hnonzero : s.uReg j * s.uA a / 2 ^ s.cfg.W ≠ 0 ↔ 2 ^ s.cfg.W ≤ s.uReg j * s.uA a := by
    rw [Nat.div_ne_zero_iff]
    exact and_iff_right (Nat.two_pow_pos _).ne'
  refine ⟨t, u, ht, hu, ?_, htflag.trans huflag.symm, ?_⟩
  · rw [hlow, hhigh, Nat.div_add_mod]
  · rw [htflag, hhigh, hnonzero, decide_eq_true_iff]

/-! ## The high word of the signed product -/

/-- The two powers of two in the bounds of a signed product: `2^W` is twice the weight of the sign bit. -/
theorem two_pow_eq_add_half {w : Nat} (h : 0 < w) : 2 ^ w = 2 ^ (w - 1) + 2 ^ (w - 1) := by
  rw [← Nat.two_mul, ← Nat.pow_succ', Nat.succ_eq_add_one, Nat.sub_add_cancel h]

/-- The upper magnitude of a signed product fits below the sign bit (41_integer_operations.md R135). -/
theorem abs_signed_mul_div_lt {w : Nat} (x y : Word w) (h : 0 < w) :
    (x.toInt * y.toInt).natAbs / 2 ^ w < 2 ^ (w - 1) := by
  refine Nat.div_lt_of_lt_mul ((abs_signed_mul_le x y).trans_lt ?_)
  have hpos : 0 < 2 ^ (w - 1) := Nat.two_pow_pos _
  rw [two_pow_eq_add_half h]
  exact Nat.mul_lt_mul_of_pos_right (by omega) hpos

/-- The literal reading of `smulh` over the integers: the magnitude's cut to `W - 1` bits and the cut of the whole to
`W` bits take nothing away. -/
theorem smulhLiteral_toNat {w : Nat} (x y : Word w) (h : 0 < w) :
    (smulhLiteral x y).toNat =
      (if x.toInt * y.toInt < 0 then 2 ^ (w - 1) else 0) + (x.toInt * y.toInt).natAbs / 2 ^ w := by
  have hmag := abs_signed_mul_div_lt x y h
  have hpow := two_pow_eq_add_half h
  have hpos : 0 < 2 ^ (w - 1) := Nat.two_pow_pos _
  rw [smulhLiteral, BitVec.toNat_ofNat, Nat.mod_eq_of_lt hmag, Nat.mod_eq_of_lt]
  split <;> omega

/-- Settles O9: the result is the sign of the product, then its upper magnitude. -/
theorem smulhLiteralStoresSignAndMagnitude : Obligations.SmulhLiteralStoresSignAndMagnitude := by
  unfold Obligations.SmulhLiteralStoresSignAndMagnitude
  refine ⟨fun f hop => by simp [Fields.instr, hop], fun s i j a hreading hok => ?_⟩
  refine exec_writesResult_of_writeResult (.smulh i j a) hok List.mem_cons_self rfl ?_ rfl
  rw [hreading]
  exact smulhLiteral_toNat (s.reg j) (s.valA a) (zero_lt_W s.cfg)

/-- The two's complement reading of `smulh` over the integers: the quotient is a signed `W`-bit number, so the cut to
`W` bits keeps it. -/
theorem smulhTwosComplement_toInt {w : Nat} (x y : Word w) (h : 0 < w) :
    (smulhTwosComplement x y).toInt = x.toInt * y.toInt / 2 ^ w := by
  have habs := abs_signed_mul_le x y
  have hhalf : (0 : Int) < 2 ^ (w - 1) := by positivity
  have hpow : (2 : Int) ^ w = 2 ^ (w - 1) + 2 ^ (w - 1) := by exact_mod_cast two_pow_eq_add_half h
  have hbound : |x.toInt * y.toInt| ≤ 2 ^ (w - 1) * 2 ^ (w - 1) := by
    rw [Int.abs_eq_natAbs]
    exact_mod_cast habs
  obtain ⟨hlow, hhigh⟩ := abs_le.1 hbound
  have hge : -2 ^ (w - 1) ≤ x.toInt * y.toInt / 2 ^ w := by
    rw [Int.le_ediv_iff_mul_le (by omega), hpow]
    nlinarith
  have hlt : x.toInt * y.toInt / 2 ^ w < 2 ^ (w - 1) := by
    rw [Int.ediv_lt_iff_lt_mul (by omega), hpow]
    nlinarith
  exact BitVec.toInt_ofInt_eq_self h hge hlt

/-- Settles O10: the result, read as a signed integer, is the quotient. -/
theorem smulhTwosComplementStoresHighProduct : Obligations.SmulhTwosComplementStoresHighProduct := by
  unfold Obligations.SmulhTwosComplementStoresHighProduct
  refine ⟨fun f hop => by simp [Fields.instr, hop], fun s i j a hreading hok => ?_⟩
  have hi : i < s.cfg.K := hok.1 i List.mem_cons_self
  have hresult : smulhResult s.cfg.smulh (s.reg j) (s.valA a) = smulhTwosComplement (s.reg j) (s.valA a) := by
    rw [hreading]
    rfl
  refine ⟨_, _, exec_of_operandsOk (ins := .smulh i j a) hok, ?_, writesResult_writeResult hi rfl rfl⟩
  have hreg : (s.setReg i (smulhResult s.cfg.smulh (s.reg j) (s.valA a))).reg i =
      smulhTwosComplement (s.reg j) (s.valA a) := by
    rw [State.setReg_reg, if_pos ⟨rfl, hi⟩, hresult]
  exact (congrArg BitVec.toInt hreg).trans (smulhTwosComplement_toInt (s.reg j) (s.valA a) (zero_lt_W s.cfg))

/-! ## Shifts -/

/-- Settles O14: the result is the shifted source cut to `W` bits, and the flag its most significant bit. -/
theorem shlShiftsLeft : Obligations.ShlShiftsLeft := by
  unfold Obligations.ShlShiftsLeft
  refine ⟨fun f hop => by simp [Fields.instr, hop], fun s i j a hok => ?_⟩
  exact exec_writesResult_of_writeResult (.shl i j a) hok List.mem_cons_self rfl
    (shlResult_toNat (s.reg j) (s.uA a)) (msbFlag_eq (s.reg j) (zero_lt_W s.cfg))

/-- Settles O15: the result is the shifted source, and the flag its least significant bit. -/
theorem shrShiftsRight : Obligations.ShrShiftsRight := by
  unfold Obligations.ShrShiftsRight
  refine ⟨fun f hop => by simp [Fields.instr, hop], fun s i j a hok => ?_⟩
  exact exec_writesResult_of_writeResult (.shr i j a) hok List.mem_cons_self rfl
    (shrResult_toNat (s.reg j) (s.uA a)) (lsbFlag_eq (s.reg j))

/-! ## Answers -/

/-- An `answer` whose operand is one of the machine notes its return value and changes nothing else. -/
theorem exec_answer_endsRun {s : State} {a : Operand} (hok : OperandsOk s.cfg [] a) :
    ∃ t, exec (.answer a) s = .next t ∧ EndsRun s t (s.uA a) :=
  ⟨_, exec_of_operandsOk (ins := .answer a) hok, endsRun_answerStep s (s.valA a)⟩

/-- Settles O31: opcode 31 is the last row of the opcode map, and `answer` notes the value of its operand. -/
theorem answerReturnsOperand : Obligations.AnswerReturnsOperand := by
  unfold Obligations.AnswerReturnsOperand
  exact ⟨fun f hop => by simp [Fields.instr, hop], fun s a hok => exec_answer_endsRun hok⟩

/-- An unassigned opcode executes as `answer 1` (30_encoding.md R93). -/
theorem exec_unassigned {i : Instr} (hu : i.isUnassigned = true) (s : State) :
    exec i s = exec (.answer (.imm 1)) s := by
  rw [exec_of_operandsOk (ins := .answer (.imm 1)) ⟨by simp [Instr.registers], one_wf s.cfg⟩]
  cases i with
  | unassigned23 => rfl
  | unassigned24 => rfl
  | unassigned25 => rfl
  | _ => cases hu

/-- `answer 1` ends a run with the return value 1. -/
theorem exec_answer_one_endsRun (s : State) : ∃ t, exec (.answer (.imm 1)) s = .next t ∧ EndsRun s t 1 := by
  have h := exec_answer_endsRun (s := s) (a := .imm 1) ⟨by simp, one_wf s.cfg⟩
  rwa [uA_imm (one_lt_two_pow_W s.cfg)] at h

/-- Settles O32: each of the three opcodes decodes to its constructor, which executes as `answer 1`. -/
theorem unassignedOpcodesAnswerOne : Obligations.UnassignedOpcodesAnswerOne := by
  unfold Obligations.UnassignedOpcodesAnswerOne
  refine ⟨fun f => ⟨fun hop => by simp [Fields.instr, hop], fun hop => by simp [Fields.instr, hop],
    fun hop => by simp [Fields.instr, hop]⟩, fun s i hi => ?_⟩
  have hu : i.isUnassigned = true := by
    simp only [List.mem_cons, List.not_mem_nil, or_false] at hi
    obtain rfl | rfl | rfl := hi <;> rfl
  rw [exec_unassigned hu]
  exact ⟨rfl, exec_answer_one_endsRun s⟩

/-! ## Completion and refusal -/

/-- Settles O34: behind the guard on its operands an instruction is its effect. -/
theorem everyInstructionCompletes : Obligations.EveryInstructionCompletes := by
  unfold Obligations.EveryInstructionCompletes
  intro s i hw
  exact ⟨effectOf i s, exec_eq_next.2 ⟨hw, rfl⟩⟩

/-- What the check of operands finds: a register number of `K` or more, or, where every register is one of the
machine, an immediate that is no `W`-bit value (30_encoding.md R95). -/
theorem checkOperands_eq_some {c : Config} {rs : List Nat} {a : Operand} {e : DecodeError}
    (h : checkOperands c rs a = some e) :
    (∃ n, c.K ≤ n ∧ e = .registerOutOfRange n) ∨
      ((∀ n ∈ rs, n < c.K) ∧ ∃ v, a = .imm v ∧ 2 ^ c.W ≤ v) := by
  unfold checkOperands at h
  split at h
  · next n hn =>
    have hK : c.K ≤ n := by simpa using List.find?_some hn
    exact .inl ⟨n, hK, (Option.some.inj h).symm⟩
  · next hnone =>
    have hrs : ∀ n ∈ rs, n < c.K := by simpa using hnone
    cases a with
    | imm v =>
      refine .inr ⟨hrs, v, rfl, ?_⟩
      by_contra hv
      simp [checkOperandA, hv] at h
    | reg n =>
      simp only [checkOperandA] at h
      split at h
      · cases h
      · next hn => exact .inl ⟨n, Nat.le_of_not_lt hn, (Option.some.inj h).symm⟩

/-- Settles O33: such an instruction is none of the machine, so the check refuses it, and an immediate is refused only
where no register is out of range. -/
theorem outOfRangeRegisterIsRefused : Obligations.OutOfRangeRegisterIsRefused := by
  unfold Obligations.OutOfRangeRegisterIsRefused
  intro s i n hK hnamed
  have hw : ¬ i.wf s.cfg = true := by
    rw [wf_iff]
    rintro ⟨hregs, ha⟩
    obtain hmem | hA := hnamed
    · exact absurd (hregs n hmem) (by omega)
    · rw [hA, Operand.wf, decide_eq_true_iff] at ha
      omega
  obtain ⟨e, hcheck, hexec⟩ := exec_refused hw
  obtain ⟨m, hm, rfl⟩ | ⟨hregs, v, hv, -⟩ := checkOperands_eq_some hcheck
  · exact ⟨m, hm, hexec⟩
  · obtain hmem | hA := hnamed
    · exact absurd (hregs n hmem) (by omega)
    · rw [hA] at hv
      cases hv

/-! ## A byte of a stored word -/

/-- Settles O29: the store leaves byte `k` of the register at address `wordAddr + k`, where the load finds it. -/
theorem loadByteReadsStoredWord : Obligations.LoadByteReadsStoredWord := by
  unfold Obligations.LoadByteReadsStoredWord
  intro s a i j k hok hj hk
  obtain ⟨t, ht, -, hfit, hbytes, -, -, -, -, ⟨hcfg, -⟩, -⟩ := storeWordWritesAlignedWord.2 s a i hok
  have haddr : wordAddr s a + k < 2 ^ t.cfg.W := by rw [hcfg]; omega
  have hokLoad : OperandsOk t.cfg [j] (.imm (wordAddr s a + k)) :=
    ⟨by simpa [hcfg] using hj, by simpa [Operand.wf] using haddr⟩
  obtain ⟨u, hu, hreg, -⟩ := loadByteZeroExtends.2 t j _ hokLoad
  refine ⟨t, u, ht, hu, ?_⟩
  rw [hreg, uA_imm haddr, hbytes k hk, BitVec.toNat_ofNat]

end Sys2Proof.Machine

/-!
PROOFS. What an instruction leaves unchanged, and what of the state it does not look at: the table of which instruction
touches which state (10_state.md sections 3, 5 and 10).
-/

namespace Sys2Proof.Machine

/-! ## The table of which instruction touches which state -/

/-- The ways in which an instruction can end, each with the columns of the table of 10_state.md R44 that it needs. -/
inductive EffectShape (s : State) (i : Instr) : State → Prop where
  | result (d : Nat) (r : Word s.cfg.W) (f : Bool) (hdest : destination i = some d) (hflag : writesFlag i = true) :
      EffectShape s i (s.writeResult d r f)
  | register (d : Nat) (r : Word s.cfg.W) (hdest : destination i = some d) : EffectShape s i (s.setReg d r).advance
  | flag (f : Bool) (hflag : writesFlag i = true) : EffectShape s i (s.setFlag f).advance
  | pc (v : Word s.cfg.W) : EffectShape s i (s.setPc v)
  | store (a n : Nat) (v : BitVec (8 * n)) (hstored : storedBytes s i = some (a, n)) (hfit : a + n ≤ 2 ^ s.cfg.W) :
      EffectShape s i (s.setMem (memWrite s.mem s.cfg.W a n v)).advance
  | tape (d : Nat) (r : Word s.cfg.W) (f : Bool) (n : Nat) (hdest : destination i = some d)
      (hflag : writesFlag i = true) (htape : tapeRead s i = some n) : EffectShape s i ((s.writeResult d r f).consume n)
  | answer (v : Word s.cfg.W) (hanswer : answerValue s i = some v.toNat) : EffectShape s i (s.setAnswered v)

/-- Every instruction ends in one of these ways. -/
theorem effectOf_shape (i : Instr) (s : State) : EffectShape s i (effectOf i s) := by
  cases i
  case cmov i a =>
    simp only [effectOf]
    split
    · exact .register i (s.valA a) rfl
    · exact .pc s.nextPc
  case mov | loadB | loadW => exact .register _ _ rfl
  case cmpe | cmpa | cmpae | cmpg | cmpge => exact .flag _ rfl
  case jmp a => exact .pc (s.valA a)
  case cjmp a => exact effectOf_cjmp s a ▸ .pc _
  case cnjmp a => exact effectOf_cnjmp s a ▸ .pc _
  case storeB a i => exact .store (byteAddr s a) 1 _ rfl (s.valA a).isLt
  case storeW a i => exact .store (wordAddr s a) s.cfg.WB (s.reg i) rfl (wal_add_le s.cfg (s.valA a))
  case read i a => exact .tape i _ _ (s.uA a) rfl rfl rfl
  case answer a => exact .answer (s.valA a) rfl
  case unassigned23 | unassigned24 | unassigned25 => exact .answer (s.valA (.imm 1)) rfl
  all_goals exact .result _ _ _ rfl rfl

/-- A register that the instruction does not write keeps its value. -/
theorem EffectShape.uReg_eq {s t : State} {i : Instr} (h : EffectShape s i t) {n : Nat} (hn : destination i ≠ some n) :
    t.uReg n = s.uReg n := by
  cases h with
  | result d r f hdest | register d r hdest | tape d r f n hdest =>
    exact sameRegs_setReg s d r _ fun hmem => hn (by rw [hdest, List.mem_singleton.1 hmem])
  | flag | pc | store | answer => rfl

/-- A flag that the instruction does not write keeps its value. -/
theorem EffectShape.flag_eq {s t : State} {i : Instr} (h : EffectShape s i t) (hw : writesFlag i = false) :
    t.flag = s.flag := by
  cases h with
  | result _ _ _ _ hflag | flag _ hflag | tape _ _ _ _ _ hflag => rw [hw] at hflag; cases hflag
  | register | pc | store | answer => rfl

/-- A byte that the instruction does not store keeps its value. -/
theorem EffectShape.byteAt_eq {s t : State} {i : Instr} (h : EffectShape s i t) {b : Nat}
    (hb : ∀ a n, storedBytes s i = some (a, n) → b < a ∨ a + n ≤ b) : t.byteAt b = s.byteAt b := by
  cases h with
  | store a n v hstored hfit =>
    have hout := hb a n hstored
    exact (read_memWrite s.mem s.cfg.W a n v hfit b).trans (if_neg (by omega))
  | result | register | flag | pc | tape | answer => rfl

/-- A tape that the instruction does not read keeps its words. -/
theorem EffectShape.uTape_eq {s t : State} {i : Instr} (h : EffectShape s i t) {n : Nat} (hn : tapeRead s i ≠ some n) :
    t.uTape n = s.uTape n := by
  cases h with
  | tape d r f k _ _ htape =>
    have hne : n ≠ k := by rintro rfl; exact hn htape
    rw [consume_uTape_of_ne _ hne, State.writeResult_uTape]
  | result | register | flag | pc | store | answer => simp

/-- Settles O36: the columns of the table one by one, from the way in which the instruction ends. -/
theorem effectsAreThoseOfTheTable : Obligations.EffectsAreThoseOfTheTable := by
  unfold Obligations.EffectsAreThoseOfTheTable
  intro s t i hexec
  obtain ⟨-, rfl⟩ := exec_eq_next.1 hexec
  have hshape := effectOf_shape i s
  obtain ⟨hcfg, hprog, hsteps⟩ := effectOf_machine i s
  exact ⟨fun n hn => hshape.uReg_eq hn, hshape.flag_eq, fun b hb => hshape.byteAt_eq hb,
    fun n hn => hshape.uTape_eq hn, effectOf_of_not_answer, ⟨hcfg, hprog⟩, hsteps⟩

/-! ## What an instruction does not look at -/

/-- An instruction other than `cmov`, `cjmp` and `cnjmp` does the same whatever the flag is, which it then writes or
leaves (10_state.md R30). -/
theorem effectOf_setFlag {i : Instr} (h : readsFlag i = false) (s : State) (b : Bool) :
    effectOf i (s.setFlag b) = (effectOf i s).setFlag (if writesFlag i then (effectOf i s).flag else b) := by
  cases i
  case cmov | cjmp | cnjmp => cases h
  all_goals rfl

/-- Settles O37: the flag is no part of the guard on operands, and no part of what the effect looks at. -/
theorem flagIsReadByThreeInstructions : Obligations.FlagIsReadByThreeInstructions := by
  unfold Obligations.FlagIsReadByThreeInstructions
  intro s t i b hreads hexec
  obtain ⟨hw, rfl⟩ := exec_eq_next.1 hexec
  exact exec_eq_next.2 ⟨hw, (effectOf_setFlag hreads s b).symm⟩

/-- With another `pc` an instruction has the same effect but for `pc` (10_state.md R22). -/
theorem effectOf_setPc (i : Instr) (s : State) (v : Word s.cfg.W) :
    ∃ w, effectOf i (s.setPc v) = (effectOf i s).setPc w := by
  cases i
  case cmov i a =>
    by_cases hflag : s.flag = true
    · rw [effectOf_cmov_of_flag i a hflag, effectOf_cmov_of_flag (s := s.setPc v) i a hflag]
      exact ⟨_, rfl⟩
    · rw [effectOf_cmov_of_not_flag i a hflag, effectOf_cmov_of_not_flag (s := s.setPc v) i a hflag]
      exact ⟨_, rfl⟩
  case cjmp a =>
    rw [effectOf_cjmp, effectOf_cjmp]
    exact ⟨_, rfl⟩
  case cnjmp a =>
    rw [effectOf_cnjmp, effectOf_cnjmp]
    exact ⟨_, rfl⟩
  all_goals exact ⟨_, rfl⟩

/-- Settles O38: the two runs of the instruction differ in `pc` alone. -/
theorem pcIsNotObservable : Obligations.PcIsNotObservable := by
  unfold Obligations.PcIsNotObservable
  intro s t i v hexec
  obtain ⟨hw, rfl⟩ := exec_eq_next.1 hexec
  obtain ⟨w, hpc⟩ := effectOf_setPc i s v
  refine ⟨(effectOf i s).setPc w, exec_eq_next.2 ⟨hw, hpc.symm⟩, ?_⟩
  exact ⟨State.setPc_uReg _ w, State.setPc_flag _ w, State.setPc_byteAt _ w, State.setPc_uTape _ w,
    State.setPc_answered _ w⟩

end Sys2Proof.Machine

/-!
PROOFS. Words and their fields: which bits of a double word an instruction is made of, what the decoder ignores and
refuses, and when encoding undoes decoding (30_encoding.md sections 1 to 4).
-/

namespace Sys2Proof.Machine

/-! ## The fields of a word make the word -/

/-- A bit of the number in a slice is a bit of the word. -/
theorem testBit_toNat_extractLsb' {w lo n k : Nat} (e : BitVec w) (hk : k < n) :
    (e.extractLsb' lo n).toNat.testBit k = e.getLsbD (lo + k) := by
  rw [BitVec.testBit_toNat, BitVec.getLsbD_extractLsb', decide_eq_true hk, Bool.true_and]

/-- Packing the fields of a word gives the word back at every bit but those of the padding (30_encoding.md R81). -/
theorem pack_fieldsOf_getLsbD {c : Config} (he : c.encodable) (e : BitVec c.EW) {k : Nat} (hk : k < c.EW) :
    (pack c (fieldsOf c e)).getLsbD k = if c.W ≤ k ∧ k < c.W + c.PAD then false else e.getLsbD k := by
  have hwidths := field_widths c he
  have hEW := EW_eq c
  have hW := W_pos c
  rw [pack_getLsbD c he]
  by_cases h6 : k < c.W
  · rw [if_pos h6, if_neg (by omega)]
    exact (testBit_toNat_extractLsb' e h6).trans (congrArg e.getLsbD (Nat.zero_add k))
  rw [if_neg h6]
  by_cases h5 : k < c.W + c.PAD
  · rw [if_pos h5, if_pos (by omega)]
  rw [if_neg h5, if_neg (by omega : ¬(c.W ≤ k ∧ k < c.W + c.PAD))]
  by_cases h4 : k < c.W + c.PAD + c.KB
  · rw [if_pos h4]
    refine (testBit_toNat_extractLsb' e (by omega)).trans (congrArg e.getLsbD ?_)
    omega
  rw [if_neg h4]
  by_cases h3 : k < c.W + c.PAD + 2 * c.KB
  · rw [if_pos h3]
    refine (testBit_toNat_extractLsb' e (by omega)).trans (congrArg e.getLsbD ?_)
    omega
  rw [if_neg h3]
  by_cases h2 : k < 2 * c.W - 5
  · obtain rfl : k = 2 * c.W - 6 := by omega
    rw [if_pos h2, decide_eq_true rfl, Bool.and_true]
    rfl
  · rw [if_neg h2, decide_eq_true (by omega : k < 2 * c.W), Bool.true_and]
    refine (testBit_toNat_extractLsb' e (by omega)).trans (congrArg e.getLsbD ?_)
    omega

/-- The fields of a word make the word exactly when its padding is zero. -/
theorem pack_fieldsOf_eq_iff {c : Config} (he : c.encodable) (e : BitVec c.EW) :
    pack c (fieldsOf c e) = e ↔ ∀ k, c.W ≤ k → k < c.W + c.PAD → e.getLsbD k = false := by
  have hwidths := field_widths c he
  constructor
  · intro hpack k hlo hhi
    rw [← hpack, pack_fieldsOf_getLsbD he e (by omega), if_pos ⟨hlo, hhi⟩]
  · intro hpad
    refine BitVec.eq_of_getLsbD_eq fun k hk => ?_
    rw [pack_fieldsOf_getLsbD he e hk]
    split
    · next hin => exact (hpad k hin.1 hin.2).symm
    · rfl

/-- Settles O40: the padding is all that packing the fields of a word can change. -/
theorem packAfterFields : Obligations.PackAfterFields := by
  unfold Obligations.PackAfterFields
  intro c e he hpad
  exact (pack_fieldsOf_eq_iff he e).2 hpad

/-! ## The bits that the decoder ignores -/

/-- The decoder sees a word through the instruction that its fields make (30_encoding.md R92). -/
theorem decode_congr {c : Config} {e e' : BitVec c.EW} (h : (fieldsOf c e).instr = (fieldsOf c e').instr) :
    decode c e = decode c e' := by
  rw [decode, decode, h]

/-- The same bits make the same number in a slice. -/
theorem extractLsb'_congr {w : Nat} {e e' : BitVec w} {lo n : Nat}
    (h : ∀ k, lo ≤ k → k < lo + n → e.getLsbD k = e'.getLsbD k) : e.extractLsb' lo n = e'.extractLsb' lo n := by
  refine BitVec.eq_of_getLsbD_eq fun k hk => ?_
  rw [BitVec.getLsbD_extractLsb', BitVec.getLsbD_extractLsb', h (lo + k) (by omega) (by omega)]

/-- Words that agree outside the padding and the register fields have the same operand `A` (30_encoding.md R90). -/
theorem fieldsOf_operandA_congr {c : Config} (he : c.encodable) {e e' : BitVec c.EW}
    (h : ∀ k, ¬ (c.W ≤ k ∧ k < c.W + c.PAD + 2 * c.KB) → e.getLsbD k = e'.getLsbD k) :
    (fieldsOf c e).operandA = (fieldsOf c e').operandA := by
  have hwidths := field_widths c he
  have hEW := EW_eq c
  have himm : (fieldsOf c e).imm = (fieldsOf c e').imm := h (2 * c.W - 6) (by omega)
  have hf6 : (fieldsOf c e).f6 = (fieldsOf c e').f6 :=
    congrArg BitVec.toNat (extractLsb'_congr fun k _ hk => h k (by omega))
  rw [Fields.operandA, Fields.operandA, himm, hf6]

/-- Words that agree on the bits of field #3 have the same field #3. -/
theorem fieldsOf_f3_congr {c : Config} (he : c.encodable) {e e' : BitVec c.EW}
    (h : ∀ k, c.W + c.PAD + c.KB ≤ k → k < c.W + c.PAD + 2 * c.KB → e.getLsbD k = e'.getLsbD k) :
    (fieldsOf c e).f3 = (fieldsOf c e').f3 := by
  have hwidths := field_widths c he
  have hEW := EW_eq c
  exact congrArg BitVec.toNat (extractLsb'_congr fun k _ _ => h k (by omega) (by omega))

/-- Words that agree on the bits of field #4 have the same field #4. -/
theorem fieldsOf_f4_congr {c : Config} (he : c.encodable) {e e' : BitVec c.EW}
    (h : ∀ k, c.W + c.PAD ≤ k → k < c.W + c.PAD + c.KB → e.getLsbD k = e'.getLsbD k) :
    (fieldsOf c e).f4 = (fieldsOf c e').f4 := by
  have hwidths := field_widths c he
  have hEW := EW_eq c
  exact congrArg BitVec.toNat (extractLsb'_congr fun k _ _ => h k (by omega) (by omega))

/-- Formats RA and AR do not read field #4 (30_encoding.md R89). -/
theorem instr_congr_of_ra {f g : Fields} (hop : f.opcode = g.opcode)
    (hmem : f.opcode ∈ [3, 18, 19, 26, 27, 28, 29, 30]) (h3 : f.f3 = g.f3) (hA : f.operandA = g.operandA) :
    f.instr = g.instr := by
  simp only [List.mem_cons, List.not_mem_nil, or_false] at hmem
  rcases hmem with h | h | h | h | h | h | h | h <;> simp [Fields.instr, ← hop, h, h3, hA]

/-- Format CA does not read field #3 (30_encoding.md R89). -/
theorem instr_congr_of_ca {f g : Fields} (hop : f.opcode = g.opcode) (hmem : f.opcode ∈ [13, 14, 15, 16, 17])
    (h4 : f.f4 = g.f4) (hA : f.operandA = g.operandA) : f.instr = g.instr := by
  simp only [List.mem_cons, List.not_mem_nil, or_false] at hmem
  rcases hmem with h | h | h | h | h <;> simp [Fields.instr, ← hop, h, h4, hA]

/-- Format A reads no register field (30_encoding.md R89). -/
theorem instr_congr_of_a {f g : Fields} (hop : f.opcode = g.opcode) (hmem : f.opcode ∈ [20, 21, 22, 31])
    (hA : f.operandA = g.operandA) : f.instr = g.instr := by
  simp only [List.mem_cons, List.not_mem_nil, or_false] at hmem
  rcases hmem with h | h | h | h <;> simp [Fields.instr, ← hop, h, hA]

/-- An unassigned opcode reads no other field (30_encoding.md R93). -/
theorem instr_congr_of_unassigned {f g : Fields} (hop : f.opcode = g.opcode) (hmem : f.opcode ∈ [23, 24, 25]) :
    f.instr = g.instr := by
  simp only [List.mem_cons, List.not_mem_nil, or_false] at hmem
  rcases hmem with h | h | h <;> simp [Fields.instr, ← hop, h]

/-- No format reads anything but the opcode, the register fields and operand `A` (30_encoding.md R89, R94). -/
theorem instr_congr {f g : Fields} (hop : f.opcode = g.opcode) (h3 : f.f3 = g.f3) (h4 : f.f4 = g.f4)
    (hA : f.operandA = g.operandA) : f.instr = g.instr := by
  rw [Fields.instr, Fields.instr, hop, h3, h4, hA]

/-- Settles O41: words that agree on the bits that their format uses have the same fields there. -/
theorem decodeIgnoresDontCareBits : Obligations.DecodeIgnoresDontCareBits := by
  unfold Obligations.DecodeIgnoresDontCareBits
  intro c e e' he hop
  refine ⟨fun h => ?_, fun hmem h => ?_, fun hmem h => ?_, fun hmem h => ?_, fun hmem => ?_⟩
  · have h3 := fieldsOf_f3_congr he fun k _ _ => h k (by omega)
    have h4 := fieldsOf_f4_congr he fun k _ _ => h k (by omega)
    have hA := fieldsOf_operandA_congr he fun k _ => h k (by omega)
    exact decode_congr (instr_congr hop h3 h4 hA)
  · have h3 := fieldsOf_f3_congr he fun k _ _ => h k (by omega)
    have hA := fieldsOf_operandA_congr he fun k _ => h k (by omega)
    exact decode_congr (instr_congr_of_ra hop hmem h3 hA)
  · have h4 := fieldsOf_f4_congr he fun k _ _ => h k (by omega)
    have hA := fieldsOf_operandA_congr he fun k _ => h k (by omega)
    exact decode_congr (instr_congr_of_ca hop hmem h4 hA)
  · exact decode_congr (instr_congr_of_a hop hmem (fieldsOf_operandA_congr he h))
  · exact decode_congr (instr_congr_of_unassigned hop hmem)

/-! ## What the decoder refuses -/

/-- The registers of a decoded instruction are its fields #3 and #4 (30_encoding.md R89). -/
theorem instr_registers {f : Fields} {n : Nat} (h : n ∈ f.instr.registers) : n = f.f3 ∨ n = f.f4 := by
  unfold Fields.instr at h
  split at h <;> simp [Instr.registers] at h <;> simp [h]

/-- Operand `A` of a decoded instruction is that of its fields, or the 1 of an unassigned opcode. -/
theorem instr_operandA (f : Fields) : f.instr.operandA = f.operandA ∨ f.instr.operandA = .imm 1 := by
  unfold Fields.instr
  split
  case h_24 | h_25 | h_26 => exact .inr rfl
  all_goals exact .inl rfl

/-- An immediate of a decoded instruction is a `W`-bit value: field #6 has `W` bits (30_encoding.md R87). -/
theorem operandA_imm_lt {c : Config} {e : BitVec c.EW} {v : Nat} (h : (fieldsOf c e).instr.operandA = .imm v) :
    v < 2 ^ c.W := by
  obtain hA | h1 := instr_operandA (fieldsOf c e)
  · rw [hA, Fields.operandA] at h
    split at h
    · obtain rfl := Operand.imm.inj h
      exact (e.extractLsb' 0 c.W).isLt
    · cases h
  · obtain rfl := Operand.imm.inj (h1.symm.trans h)
    exact one_lt_two_pow_W c

/-- Where the encoding exists a word decodes to an instruction, or is refused by a register number of `K` or more
(30_encoding.md R92, R95). -/
theorem decode_ok_or_registerOutOfRange {c : Config} (he : c.encodable) (e : BitVec c.EW) :
    (∃ i, decode c e = .ok i) ∨ ∃ n, c.K ≤ n ∧ decode c e = .error (.registerOutOfRange n) := by
  rw [decode, if_pos he, checkInstr]
  cases hcheck : checkOperands c (fieldsOf c e).instr.registers (fieldsOf c e).instr.operandA with
  | none => exact .inl ⟨_, rfl⟩
  | some err =>
    obtain ⟨n, hn, rfl⟩ | ⟨-, v, hv, hge⟩ := checkOperands_eq_some hcheck
    · exact .inr ⟨n, hn, rfl⟩
    · exact absurd (operandA_imm_lt hv) (by omega)

/-- Where `K` is a power of two every value of a register field is a register number (30_encoding.md R95). -/
theorem pow_KB_of_pow_two {c : Config} {m : Nat} (h : c.K = 2 ^ m) : 2 ^ c.KB = c.K := by
  rw [Config.KB, ceilLog2, h]
  cases m with
  | zero => rfl
  | succ m =>
    have hpos : 0 < 2 ^ m := Nat.two_pow_pos m
    have hlog : Nat.log2 (2 ^ (m + 1) - 1) = m := by
      rw [Nat.log2_eq_iff (by omega)]
      omega
    rw [if_neg (by omega), hlog]

/-- With the imm bit 1 and `K` a power of two, no field of a word can be out of range (30_encoding.md R92). -/
theorem instr_wf_of_imm {c : Config} {e : BitVec c.EW} (hK : ∃ m, c.K = 2 ^ m)
    (himm : (fieldsOf c e).imm = true) : (fieldsOf c e).instr.wf c = true := by
  obtain ⟨m, hm⟩ := hK
  have hKB := pow_KB_of_pow_two hm
  refine (wf_iff _ _).2 ⟨fun n hn => ?_, ?_⟩
  · rw [← hKB]
    obtain rfl | rfl := instr_registers hn
    · exact (e.extractLsb' (2 * c.W - 6 - c.KB) c.KB).isLt
    · exact (e.extractLsb' (2 * c.W - 6 - 2 * c.KB) c.KB).isLt
  · obtain ⟨v, hv⟩ : ∃ v, (fieldsOf c e).instr.operandA = .imm v := by
      obtain hA | h1 := instr_operandA (fieldsOf c e)
      · exact ⟨_, hA.trans (by rw [Fields.operandA, if_pos himm])⟩
      · exact ⟨1, h1⟩
    rw [hv, Operand.wf, decide_eq_true_iff]
    exact operandA_imm_lt hv

/-- Settles O42: the check of the decoded operands is all that can refuse a word. -/
theorem decoderIsTotalButForRegisters : Obligations.DecoderIsTotalButForRegisters := by
  unfold Obligations.DecoderIsTotalButForRegisters
  intro c e he
  exact ⟨fun hK himm => ⟨_, (decode_eq_ok c e _).2 ⟨he, rfl, instr_wf_of_imm hK himm⟩⟩,
    decode_ok_or_registerOutOfRange he e⟩

/-! ## Encoding a decoded word -/

/-- The opcode of a word has five bits (30_encoding.md R82). -/
theorem fieldsOf_opcode_lt (c : Config) (e : BitVec c.EW) : (fieldsOf c e).opcode < 32 :=
  (e.extractLsb' (2 * c.W - 5) 5).isLt

/-- Encoding an instruction of the machine gives a word exactly when the word has the fields of the instruction and no
bit of padding set (30_encoding.md R96). -/
theorem encode_eq_iff {c : Config} {i : Instr} (he : c.encodable) (hw : i.wf c = true) (e : BitVec c.EW) :
    encode c i = e ↔
      i.fields = fieldsOf c e ∧ ∀ k, c.W ≤ k → k < c.W + c.PAD → e.getLsbD k = false := by
  rw [← pack_fieldsOf_eq_iff he]
  constructor
  · intro henc
    have hf : i.fields = fieldsOf c e := by rw [← henc, fieldsOf_encode he hw]
    exact ⟨hf, by rw [← hf]; exact henc⟩
  · rintro ⟨hf, hpack⟩
    rw [encode, hf, hpack]

/-- The fields written for operand `A` of a word, with register fields `a` and `b`, are those of the word exactly when
the opcode and the register fields are. -/
theorem ofOperands_operandA_eq_iff (f : Fields) (op a b : Nat) :
    Fields.ofOperands op a b f.operandA = f ↔ op = f.opcode ∧ a = f.f3 ∧ b = f.f4 := by
  obtain ⟨opcode, imm, f3, f4, f6⟩ := f
  cases imm <;> simp [Fields.operandA, Fields.ofOperands]

/-- The fields written for an assigned opcode, by its format: a register field that the format ignores is 0, and every
other field is the one decoded (30_encoding.md R89, R96). -/
theorem instr_fields_of_assigned (f : Fields) (hop : f.opcode < 32) (hu : f.opcode ∉ [23, 24, 25]) :
    f.instr.fields = .ofOperands f.opcode
      (if f.opcode ∈ [13, 14, 15, 16, 17] ∨ f.opcode ∈ [20, 21, 22, 31] then 0 else f.f3)
      (if f.opcode ∈ [3, 18, 19, 26, 27, 28, 29, 30] ∨ f.opcode ∈ [20, 21, 22, 31] then 0 else f.f4) f.operandA := by
  obtain ⟨op, imm, f3, f4, f6⟩ := f
  simp only at hop hu ⊢
  obtain hlow | hhigh : op < 23 ∨ 25 < op := by
    simp only [List.mem_cons, List.not_mem_nil, or_false] at hu
    omega
  · interval_cases op <;> rfl
  · interval_cases op <;> rfl

/-- The fields written for an unassigned opcode are those of `answer 1` (30_encoding.md R93, R96). -/
theorem instr_fields_of_unassigned {f : Fields} (hu : f.opcode ∈ [23, 24, 25]) :
    f.instr.fields = .ofOperands 31 0 0 (.imm 1) := by
  simp only [List.mem_cons, List.not_mem_nil, or_false] at hu
  rcases hu with h | h | h <;> simp [Fields.instr, h, Instr.fields]

/-- The fields written for a decoded instruction are the fields it was decoded from exactly when every register field
that its format ignores is 0, and its opcode is assigned (30_encoding.md R96). -/
theorem instr_fields_eq_iff (f : Fields) (hop : f.opcode < 32) :
    f.instr.fields = f ↔
      (f.opcode ∈ [3, 18, 19, 26, 27, 28, 29, 30] → f.f4 = 0) ∧ (f.opcode ∈ [13, 14, 15, 16, 17] → f.f3 = 0) ∧
        (f.opcode ∈ [20, 21, 22, 31] → f.f3 = 0 ∧ f.f4 = 0) ∧ f.opcode ∉ [23, 24, 25] := by
  by_cases hu : f.opcode ∈ [23, 24, 25]
  · have hwritten : f.instr.fields.opcode = 31 := congrArg Fields.opcode (instr_fields_of_unassigned hu)
    have hne : f.instr.fields ≠ f := fun h => by
      rw [← h, hwritten] at hu
      exact absurd hu (by decide)
    simp only [hne, hu, not_true_eq_false, and_false]
  · rw [instr_fields_of_assigned f hop hu, ofOperands_operandA_eq_iff]
    simp only [hu, not_false_eq_true, and_true, true_and, ite_eq_right_iff, eq_comm (a := (0 : Nat))]
    tauto

/-- Settles O60: the word comes back exactly when its fields are those that the encoder writes and its padding is
zero. -/
theorem encodeAfterDecode : Obligations.EncodeAfterDecode := by
  unfold Obligations.EncodeAfterDecode
  intro c e i hdecode
  obtain ⟨he, rfl, hw⟩ := (decode_eq_ok c e i).1 hdecode
  rw [encode_eq_iff he hw, instr_fields_eq_iff _ (fieldsOf_opcode_lt c e)]
  exact and_comm

end Sys2Proof.Machine

/-!
PROOFS. From a program to a run: the words of the spec, what is fetched from memory and from a loaded program, that a
well-formed machine goes on, and what the assembler makes of a text (30_encoding.md sections 4 and 5; 10_state.md R28,
R41; 60_exceptions.md R180; 70_reset_and_hazards.md R202, R203).
-/

namespace Sys2Proof.Machine

/-! ## Words that the spec writes out -/

/-- The fields of the all-zero word are 0 (30_encoding.md R99). -/
theorem fieldsOf_zero (c : Config) :
    fieldsOf c 0 = { opcode := 0, imm := false, f3 := 0, f4 := 0, f6 := 0 } := by
  simp [fieldsOf]

/-- The all-zero word is `and r0, r0, r0` in every machine that has a register (30_encoding.md R99). -/
theorem decode_zero {c : Config} (he : c.encodable) (hK : 1 ≤ c.K) : decode c 0 = .ok (.and 0 0 (.reg 0)) := by
  have hpos : 0 < c.K := hK
  rw [decode_eq_ok, fieldsOf_zero]
  refine ⟨he, rfl, (wf_iff _ _).2 ⟨?_, ?_⟩⟩
  · simpa [Instr.registers] using hpos
  · simpa [Instr.operandA, Operand.wf] using hpos

/-- Settles O44: the ten words are decoded by evaluation, the all-zero word for every machine. -/
theorem specWordsDecode : Obligations.SpecWordsDecode := by
  unfold Obligations.SpecWordsDecode
  refine ⟨?_, ?_, ?_, ?_, ?_, ?_, ?_, ?_, ?_, ?_, fun c he hK => decode_zero he hK⟩
  all_goals decide

/-! ## Fetch from memory -/

/-- Settles O47: the double word fetched is made of the encoded bytes, so it is the encoded instruction. -/
theorem fetchSeesMemoryAsItIs : Obligations.FetchSeesMemoryAsItIs := by
  unfold Obligations.FetchSeesMemoryAsItIs
  intro s i hl ha hw hbytes
  have hword : fetchWord s = encode s.cfg i :=
    (fetchWord_eq hbytes).trans (blockOfBytes_bytesOfBlock s.cfg.DWB (encode s.cfg i))
  rw [fetch_vn_eq_ok hl ha, hword]
  exact decode_encode (hl.2 ha) hw

/-! ## A well-formed machine goes on -/

/-- An hv machine whose program is one fetches an instruction at every `pc` (10_state.md R25). -/
theorem exists_fetch_of_hv {s : State} (hl : s.cfg.legal) (ha : s.cfg.arch = .hv) (hp : Program.wf s.cfg s.prog) :
    ∃ i, fetch s = .ok i := by
  obtain ⟨hlen, hwf⟩ := hp
  refine ⟨_, (fetch_hv_eq_ok hl ha hlen).2 ⟨rfl, ?_⟩⟩
  cases hget : s.prog[s.uPc]? with
  | some i => exact hwf i (List.mem_of_getElem? hget)
  | none => exact answer_one_wf s.cfg

/-- In vn a word that the decoder refuses is refused by the fetch (30_encoding.md R95). -/
theorem fetch_vn_of_error {s : State} {e : DecodeError} (hl : s.cfg.legal) (ha : s.cfg.arch = .vn)
    (h : decode s.cfg (fetchWord s) = .error e) : fetch s = .error (.notAnInstruction e) := by
  rw [fetch, if_pos hl, ha]
  simp only [fetchVn, h]
  rfl

/-- Settles O48: an instruction that is fetched is one of the machine and completes; only a vn word can be refused. -/
theorem wellFormedMachineGoesOn : Obligations.WellFormedMachineGoesOn := by
  unfold Obligations.WellFormedMachineGoesOn
  rintro s ⟨hl, hp, -⟩ hh
  cases ha : s.cfg.arch with
  | hv =>
    obtain ⟨i, hf⟩ := exists_fetch_of_hv hl ha hp
    exact .inl ⟨_, (step_of_fetch hh hf).2⟩
  | vn =>
    obtain ⟨i, hd⟩ | ⟨n, hn, hd⟩ := decode_ok_or_registerOutOfRange (hl.2 ha) (fetchWord s)
    · exact .inl ⟨_, (step_of_fetch hh ((fetch_vn_eq_ok hl ha).2 hd)).2⟩
    · refine .inr ⟨rfl, n, hn, ?_⟩
      simp [step, hh, fetch_vn_of_error hl ha hd]

/-! ## The loader -/

/-- Bytes written to empty memory from address 0 up are read back there, and the default after them (20_memory.md
R53). -/
theorem read_writeBytes_nil {w : Nat} {bs : List Byte} (h : bs.length ≤ 2 ^ w) (a : Nat) :
    Memory.read (Memory.writeBytes [] w 0 bs) a = bs.getD a 0 := by
  by_cases ha : a < bs.length
  · have hread := read_writeBytes_inside [] w 0 bs a h ha
    rwa [Nat.zero_add, Nat.mod_eq_of_lt (by omega)] at hread
  · rw [List.getD_eq_default _ _ (by omega)]
    refine read_writeBytes_outside [] w 0 bs a fun k hk => ?_
    rw [Nat.zero_add, Nat.mod_eq_of_lt (by omega)]
    omega

/-- A vn machine starts with the image it is given (10_state.md R41). -/
theorem initial_mem_of_vn {c : Config} (h : c.arch = .vn) (p : List Instr) (m : Memory) (x w : List (Word c.W)) :
    (State.initial c p m x w).mem = m := by
  simp only [State.initial, h]

/-- Settles O53: in vn the loader makes the initial state whose memory is the image and the bytes written from address
0. -/
theorem vnInitialStateHoldsTheImage : Obligations.VnInitialStateHoldsTheImage := by
  unfold Obligations.VnInitialStateHoldsTheImage
  intro c p m x w s ha hload
  obtain ⟨-, -, ⟨hhv, -, -⟩ | ⟨-, hlen, rfl⟩⟩ := load_eq_ok hload
  · rw [ha] at hhv
    cases hhv
  · refine ⟨rfl, rfl, initial_uReg c [] _ x w, rfl, fun a => ?_, rfl, rfl⟩
    rw [State.byteAt, initial_mem_of_vn ha]
    exact read_writeBytes_nil hlen a

/-- What the loader makes is well-formed: it checks the parameters, the program and that the image fits (10_state.md
R24, R31, R42). -/
theorem load_wf {c : Config} {p : List Instr} {m : List Byte} {x w : List (Word c.W)} {s : State}
    (h : load c p m x w = .ok s) : s.wf := by
  have hempty : Memory.wf [] := ⟨List.Pairwise.nil, by simp⟩
  obtain ⟨hl, hcheck, ⟨ha, hlen, rfl⟩ | ⟨ha, -, rfl⟩⟩ := load_eq_ok h
  · have hprog : Program.wf c p := ⟨hlen, checkProgram_eq_none.1 hcheck⟩
    simp only [State.wf, State.initial, ha]
    exact ⟨hl, hprog, hempty, by simp⟩
  · have hprog : Program.wf c [] := ⟨Nat.zero_le _, by simp⟩
    simp only [State.wf, State.initial, ha]
    exact ⟨hl, hprog, wf_writeBytes hempty c.W 0 _, bounded_writeBytes (by simp) 0 _⟩

/-- An hv machine at the number of an instruction of its program fetches it (10_state.md R25). -/
theorem fetch_of_program_hv {s : State} {n : Nat} {i : Instr} (hwf : s.wf) (ha : s.cfg.arch = .hv)
    (hi : s.prog[n]? = some i) (hpc : s.uPc = n) : fetch s = .ok i := by
  obtain ⟨hl, ⟨hlen, hprog⟩, -⟩ := hwf
  rw [fetch_hv_eq_ok hl ha hlen, hpc, hi]
  exact ⟨rfl, hprog i (List.mem_of_getElem? hi)⟩

/-- A vn machine whose memory holds the image of a program fetches each of its instructions at the instruction's
number, as its encoding says it (10_state.md R28, R41). -/
theorem fetch_of_image_vn {s : State} {p : List Instr} {m : List Byte} {n : Nat} {i : Instr} (hl : s.cfg.legal)
    (ha : s.cfg.arch = .vn) (hbytes : ∀ a, s.byteAt a = (imageBytes s.cfg p ++ m).getD a 0) (hi : p[n]? = some i)
    (hw : i.wf s.cfg = true) (hpc : s.uPc = n * s.cfg.DWB) : fetch s = .ok i.canonical := by
  refine fetchSeesMemoryAsItIs s i hl ha hw fun k hk => ?_
  have hpos : 0 < s.cfg.DWB := by omega
  rw [hpc, Nat.mul_div_cancel n hpos, hbytes, imageBytes_getD s.cfg p m n k i hi hk]

/-- The number of an instruction of a loaded program is a value of `pc` (30_encoding.md R105). -/
theorem load_instrNumber_lt {c : Config} {p : List Instr} {m : List Byte} {x w : List (Word c.W)} {s : State}
    (h : load c p m x w = .ok s) {n : Nat} (hn : n < p.length) : instrNumber c n < 2 ^ c.W := by
  obtain ⟨-, -, ⟨ha, hlen, -⟩ | ⟨ha, hlen, -⟩⟩ := load_eq_ok h
  · simp only [instrNumber, ha]
    omega
  · have hpos : 0 < c.DWB := by have := Nat.two_pow_pos c.logWB; simp only [Config.DWB, Config.WB]; omega
    have hlt : n * c.DWB < p.length * c.DWB := Nat.mul_lt_mul_of_pos_right hn hpos
    rw [List.length_append, imageBytes_length] at hlen
    simp only [instrNumber, ha]
    omega

/-- Settles O54: the loader's state is well-formed, and holds the program where each variant fetches it. -/
theorem loadedProgramIsFetched : Obligations.LoadedProgramIsFetched := by
  unfold Obligations.LoadedProgramIsFetched
  intro c p m x w s hload
  have hwf := load_wf hload
  have hnumber := @load_instrNumber_lt c p m x w s hload
  obtain ⟨hl, hcheck, hcases⟩ := load_eq_ok hload
  have hprog := checkProgram_eq_none.1 hcheck
  obtain ⟨ha, -, rfl⟩ | ⟨ha, -, rfl⟩ := hcases
  · refine ⟨hwf, rfl, rfl, fun n i hi => ?_⟩
    have hlt := hnumber (List.getElem?_eq_some_iff.1 hi).1
    simp only [instrNumber, ha] at hlt ⊢
    exact fetch_of_program_hv hwf ha ((congrArg (·[n]?) (initial_prog_of_hv ha p [] x w)).trans hi)
      ((BitVec.toNat_ofNat _ _).trans (Nat.mod_eq_of_lt hlt))
  · refine ⟨hwf, rfl, rfl, fun n i hi => ?_⟩
    have hlt := hnumber (List.getElem?_eq_some_iff.1 hi).1
    obtain ⟨-, -, -, -, hbytes, -⟩ := vnInitialStateHoldsTheImage c p m x w _ ha hload
    simp only [instrNumber, ha] at hlt ⊢
    exact fetch_of_image_vn hl ha hbytes hi (hprog i (List.mem_of_getElem? hi))
      ((BitVec.toNat_ofNat _ _).trans (Nat.mod_eq_of_lt hlt))

/-! ## The assembler -/

/-- What assembled lines are: instructions of the machine, no more than it can hold (30_encoding.md R105, R106). -/
theorem assembleLines_eq_ok {c : Config} {ls : List SourceLine} {p : List Instr} (h : assembleLines c ls = .ok p) :
    (∀ i ∈ p, i.wf c = true) ∧ instrNumber c p.length ≤ 2 ^ c.W := by
  simp only [assembleLines] at h
  split at h
  · cases h
  next hfits =>
    split at h
    · cases h
    · obtain ⟨hwf, hlen⟩ := buildAll_eq_ok h
      exact ⟨hwf, hlen ▸ Nat.le_of_not_lt hfits⟩

/-- What an accepted text is: a first line that is a header, and lines that assemble for the header's machine
(30_encoding.md R100). -/
theorem assemble_eq_ok {am : AnswerMode} {sr : SmulhReading} {text : List Char} {c : Config} {p : List Instr}
    (h : assemble am sr text = .ok (c, p)) :
    ∃ hd ls, (splitAtChars isLineEnd text).head? = some hd ∧ parseHeader am sr hd = some c ∧
      assembleLines c ls = .ok p := by
  unfold assemble at h
  split at h
  · cases h
  next hd rest hsplit =>
    split at h
    · cases h
    next c' hheader =>
      split at h
      · cases h
      next ls hlines =>
        split at h
        · cases h
        next p' hp =>
          obtain ⟨rfl, rfl⟩ := Prod.mk.inj (Except.ok.inj h)
          exact ⟨hd, ls, by rw [hsplit]; rfl, hheader, hp⟩

/-- Settles O55: the header gives the machine, and the lines give a program of it. -/
theorem assembledTextIsAProgram : Obligations.AssembledTextIsAProgram := by
  unfold Obligations.AssembledTextIsAProgram
  intro am sr text c p h
  obtain ⟨hd, ls, hhead, hheader, hlines⟩ := assemble_eq_ok h
  obtain ⟨⟨m, w, k, hfields, harch, hw, hk⟩, hlegal, ham, hsr⟩ := parseHeader_eq_some hheader
  obtain ⟨hwf, hfits⟩ := assembleLines_eq_ok hlines
  exact ⟨⟨m, w, k, by rw [hhead, Option.map_some, hfields], harch, hw, hk⟩, hlegal, ham, hsr, hwf, hfits⟩

end Sys2Proof.Machine
